-- ==== Sys2Proof/Word.lean ====
section
/-! DEFINITION. The byte, the one datum of the hardware, and its two readings as a number (00_scope.md R6, R7). -/

namespace Sys2Proof

/-- A byte: 8 bits, bit 7 the most significant (R6). Registers, cells, operands, opcodes and `pc` are bytes. -/
abbrev Byte := BitVec 8

/-- The unsigned value 0..255 of a byte, as an unbounded integer, the number the pseudocode computes with (R6). -/
def uval (b : Byte) : Int := (b.toNat : Int)

/-- `v mod 256` for any integer `v`, negative ones included: what a write that masks to 8 bits stores (R6, R7). -/
def narrow (v : Int) : Byte := BitVec.ofInt 8 v

end Sys2Proof
end

