-- ==== Sys2Proof/Config.lean ====
section
/-! DEFINITION. The parameters of the hardware under the names of 00_scope.md R5, and the parameters that
92_eei_decisions.md leaves OPEN, as constants without a body. -/

namespace Sys2Proof

/-- The two treatments the source admits for an address computation that leaves 0..255 (decision D1). -/
inductive AddrPolicy where
  | mask   -- taken modulo 256
  | fault  -- a fatal error
deriving DecidableEq, Repr

/-- The two treatments considered for a register-index operand of 8..255 (decision D3). -/
inductive RegIdxPolicy where
  | fault  -- RegIndexFault
  | mask   -- the low three bits
deriving DecidableEq, Repr

/-- How the error collaborator writes the two numbers of its line, and what ends the line (60_exceptions.md R132). -/
structure ErrNumFormat where
  opcodeText : Byte → List Char
  pcText     : Byte → List Char
  lineEnd    : List Char
deriving Inhabited

namespace Config

/-- Width in bits of a register, a cell, an operand byte and an opcode. `Byte` has this width. -/
def XLEN : Nat := 8
/-- Number of general registers. -/
def NREGS : Nat := 8
/-- Number of memory cells. -/
def MEM_SIZE : Nat := 256
/-- Width of a memory address. -/
def ADDR_BITS : Nat := 8
/-- Width of `pc` (the spec's decision D2). -/
def PC_BITS : Nat := 8
/-- The register that is the stack pointer. -/
def SP_INDEX : Fin 8 := 7
/-- Reset value of `x[7]`. -/
def SP_RESET : Byte := 0xF4
/-- Reset value of `pc`, and the address the loader starts writing at. -/
def PC_RESET : Byte := 0x00
/-- Reset value of `x[0]` to `x[6]` (the spec's decision D4). -/
def GPR_RESET : Byte := 0x00
/-- What every cell holds before the loader writes. -/
def MEM_RESET : Byte := 0x00
/-- The status presented to the host after HLT. -/
def EXIT_STATUS_HLT : Nat := 1
/-- The status presented to the host after a fault. -/
def EXIT_STATUS_FAULT : Nat := 1
/-- Recorded choice: addresses wrap. The wrap itself is `State.memRead` and `State.memWrite` (R31, R32). -/
def ADDR_POLICY : AddrPolicy := .mask
/-- Recorded choice: an index above 7 faults. The fault itself is `requireReg` (40_run_loop_and_hlt.md R74). -/
def REGIDX_POLICY : RegIdxPolicy := .fault

/-- OPEN (decision D9): how the diagnostic text writes its numbers. No body: nothing is known of it, and no rule of
the core reads it. -/
opaque ERR_NUM_FORMAT : ErrNumFormat

/-- The text the error collaborator shows for a RegIndex record (opcode, pc, operand): R132 says it may render it as
it likes. No body: nothing is known of it. -/
opaque REGINDEX_TEXT : Byte → Byte → Byte → List Char

end Config

end Sys2Proof
end

