-- ==== Sys2Proof/Syntax.lean ====
section
/-! DEFINITION. The instructions: one constructor for each row of spec/opcode_table.json (30_encoding.md R53). -/

namespace Sys2Proof

/-- An instruction with its operand bytes as fetched. A register-index operand is the whole byte (R52): the values
8..255 are operands like any other here, and what they do is the meaning's business (40_run_loop_and_hlt.md R74). -/
inductive Instr where
  /-- HLT: stop (R77). -/
  | hlt
  /-- LDI: load the immediate `b` into register `a` (R85). -/
  | ldi (a b : Byte)
  /-- PRN: print register `a` (R86). -/
  | prn (a : Byte)
  /-- ADD: add register `b` to register `a` (R95). -/
  | add (a b : Byte)
  /-- MUL: multiply register `a` by register `b` (R96). -/
  | mul (a b : Byte)
  /-- PUSH: push register `a` (R101). -/
  | push (a : Byte)
  /-- POP: pop into register `a` (R102). -/
  | pop (a : Byte)
  /-- CALL: call the subroutine whose address is in register `a` (R110). -/
  | call (a : Byte)
  /-- RET: return from subroutine (R111). -/
  | ret
deriving DecidableEq, Repr

end Sys2Proof
end

