-- ==== Sys2Proof/WellFormed.lean ====
section
/-! DEFINITION. Which instructions are well formed: every register-index operand is in 0..7 (10_state.md R15,
30_encoding.md R52). The machine runs the others too: they raise RegIndexFault. -/

namespace Sys2Proof

/-- The operand byte names one of the eight registers (R15). -/
def regOk (v : Byte) : Bool := decide (v.toNat < Config.NREGS)

/-- The register-index operands of an instruction, in the order in which they are checked (40_run_loop_and_hlt.md R74).
LDI's second operand is an immediate and is none. -/
def Instr.regOperands : Instr → List Byte
  | .hlt => []
  | .ldi a _ => [a]
  | .prn a => [a]
  | .add a b => [a, b]
  | .mul a b => [a, b]
  | .push a => [a]
  | .pop a => [a]
  | .call a => [a]
  | .ret => []

/-- Every register-index operand of the instruction is in 0..7. An immediate has no illegal value (R56). -/
def Instr.wellFormed (i : Instr) : Bool := i.regOperands.all regOk

end Sys2Proof
end

