-- ==== Sys2Proof/Decode.lean ====
section
/-! DEFINITION. The instruction_decoder, the decoder of whole instructions, and the encoder (30_encoding.md). -/

namespace Sys2Proof

/-- The four formats of R50. -/
inductive Format where
  | Z   -- no operand
  | R   -- one register
  | RI  -- register, immediate
  | RR  -- two registers
deriving DecidableEq, Repr

/-- The nine mnemonics of R53: what the decoder selects, before any operand is looked at. -/
inductive Mnemonic where
  | HLT | LDI | PRN | ADD | MUL | PUSH | POP | CALL | RET
deriving DecidableEq, Repr

/-- One row of the dispatch table (R53). -/
structure Row where
  opcode   : Byte
  mnemonic : Mnemonic
  operands : Nat
  format   : Format
  length   : Nat
deriving DecidableEq, Repr

/-- Why bytes are not an instruction. -/
inductive DecodeError where
  /-- The opcode byte is none of the nine values (R55). In the machine this raises UnknownOpcode. -/
  | unknownOpcode (ir : Byte)
  /-- The byte list ends before the instruction does. The machine never meets it: memory has no end (20_memory.md R46). -/
  | truncated
deriving DecidableEq, Repr

/-- The opcode byte of each instruction, from the binary column of R53. -/
abbrev opcodeHlt : Byte := 0b00000001
abbrev opcodeLdi : Byte := 0b10000010
abbrev opcodePrn : Byte := 0b01000111
abbrev opcodeAdd : Byte := 0b10100000
abbrev opcodeMul : Byte := 0b10100010
abbrev opcodePush : Byte := 0b01000101
abbrev opcodePop : Byte := 0b01000110
abbrev opcodeCall : Byte := 0b01010000
abbrev opcodeRet : Byte := 0b00010001

/-- The dispatch table, in the order of R53. -/
def dispatchTable : List Row :=
  [ ⟨opcodeHlt, .HLT, 0, .Z, 1⟩,
    ⟨opcodeLdi, .LDI, 2, .RI, 3⟩,
    ⟨opcodePrn, .PRN, 1, .R, 2⟩,
    ⟨opcodeAdd, .ADD, 2, .RR, 3⟩,
    ⟨opcodeMul, .MUL, 2, .RR, 3⟩,
    ⟨opcodePush, .PUSH, 1, .R, 2⟩,
    ⟨opcodePop, .POP, 1, .R, 2⟩,
    ⟨opcodeCall, .CALL, 1, .R, 2⟩,
    ⟨opcodeRet, .RET, 0, .Z, 1⟩ ]

/-- The instruction_decoder (R61): the row whose opcode equals the whole byte (R54), or `none` for unknown (R55). -/
def instructionDecoder (ir : Byte) : Option Row :=
  dispatchTable.find? (fun r => r.opcode == ir)

/-- The instruction a mnemonic makes of the two operand bytes: it uses as many as its row says (R50, R51). -/
def assemble (m : Mnemonic) (a b : Byte) : Instr :=
  match m with
  | .HLT => .hlt
  | .LDI => .ldi a b
  | .PRN => .prn a
  | .ADD => .add a b
  | .MUL => .mul a b
  | .PUSH => .push a
  | .POP => .pop a
  | .CALL => .call a
  | .RET => .ret

/-- The instruction in the three bytes of a fetch (40_run_loop_and_hlt.md R70): selected by `ir` alone. -/
def decodeFetched (ir a b : Byte) : Except DecodeError Instr :=
  match instructionDecoder ir with
  | some row => .ok (assemble row.mnemonic a b)
  | none => .error (.unknownOpcode ir)

/-- The instruction at the front of a list of bytes, and the bytes after it (R50, R57). -/
def decode (bytes : List Byte) : Except DecodeError (Instr × List Byte) :=
  match bytes with
  | [] => .error .truncated
  | ir :: rest =>
    match instructionDecoder ir with
    | none => .error (.unknownOpcode ir)
    | some row =>
      if rest.length < row.operands then .error .truncated
      else .ok (assemble row.mnemonic (rest.getD 0 0) (rest.getD 1 0), rest.drop row.operands)

/-- The opcode byte of an instruction (R53). -/
def opcodeOf : Instr → Byte
  | .hlt => opcodeHlt
  | .ldi _ _ => opcodeLdi
  | .prn _ => opcodePrn
  | .add _ _ => opcodeAdd
  | .mul _ _ => opcodeMul
  | .push _ => opcodePush
  | .pop _ => opcodePop
  | .call _ => opcodeCall
  | .ret => opcodeRet

/-- The operand bytes of an instruction, in address order (20_memory.md R33). -/
def operandsOf : Instr → List Byte
  | .hlt => []
  | .ldi a b => [a, b]
  | .prn a => [a]
  | .add a b => [a, b]
  | .mul a b => [a, b]
  | .push a => [a]
  | .pop a => [a]
  | .call a => [a]
  | .ret => []

/-- The bytes of an instruction at ascending addresses: opcode, operand_a, operand_b (R50, R33). -/
def encode (i : Instr) : List Byte := opcodeOf i :: operandsOf i

/-- Byte `k` of an instruction whose bits are `w`, bit 0 the least significant bit of the first byte. -/
def tableByte (nbits w k : Nat) : Byte := BitVec.ofNat 8 ((w % 2 ^ nbits) >>> (8 * k))

/-- The instruction the decoder reads from the bits `w` of which the table gives the first `nbits`; the bits above
are zero. -/
def decodeTableWord (nbits w : Nat) : Option Instr :=
  match decodeFetched (tableByte nbits w 0) (tableByte nbits w 1) (tableByte nbits w 2) with
  | .ok i => some i
  | .error _ => none

end Sys2Proof
end

