-- ==== Sys2Proof/Machine/State.lean ====
section
/-! DEFINITION. The state of the hardware (10_state.md R10), its observables (R24), its reset value (R25), and the
reasons a step of the model stops. -/

namespace Sys2Proof.Machine

/-- Memory: the cells that do not hold `Config.MEM_RESET`, by rising address. `Memory.wf` is the form. -/
abbrev Memory := List Host.Cell

/-- The two states of the engine (R19). -/
inductive RunState where
  | running
  | halted
deriving DecidableEq, Repr

/-- A record of the error stream (60_exceptions.md R120). -/
inductive ErrRecord where
  /-- The byte `ir`, fetched at `pc`, is no opcode (R121). -/
  | unknownOpcode (ir pc : Byte)
  /-- The instruction with opcode `ir` at `pc` has the register-index operand `operand`, above 7 (R122). -/
  | regIndex (ir pc operand : Byte)
deriving DecidableEq, Repr

/-- The state (R10) and the three observables, which the step writes and never reads (R24). -/
structure State where
  /-- `memory_array` (20_memory.md R30). -/
  mem        : Memory
  /-- `register_file`: `x[0]` to `x[7]` (R11); `x[7]` is the stack pointer (R12). -/
  regs       : Vector Byte 8
  /-- `program_counter` (R16, R18). -/
  pc         : Byte
  /-- RUNNING or HALTED (R19). -/
  runState   : RunState
  /-- The output stream, oldest byte first (R24). -/
  out        : List Byte
  /-- The error stream, oldest record first (R24). -/
  err        : List ErrRecord
  /-- The number presented to the host; none while RUNNING (R24). -/
  exitStatus : Option Nat
deriving DecidableEq, Repr

/-- Why the machine has no next state. The hardware's own faults (UnknownOpcode, RegIndexFault) are next states:
their entry is described (R127) and `State.raise` takes it. -/
inductive Fault where
  /-- Raised by `step` alone, in a HALTED state: there is no step in HALTED (R19, 40_run_loop_and_hlt.md R70).
  Safe: the hardware has no successor there either (93_implementation_defined.md U11). -/
  | halted
deriving DecidableEq, Repr

/-- Why the model gives an instruction no meaning. -/
inductive Refusal where
  /-- Raised by an arm of `exec` whose instruction has no meaning yet. Safe. No arm raises it in this model. -/
  | notModelled (mnemonic : String)
deriving DecidableEq, Repr

/-- The outcome of a step or of a meaning. -/
abbrev Result := Host.Outcome State Fault Refusal

/-- The state after reset, before the loader writes the image (R25). -/
def State.reset : State where
  mem := []
  regs := #v[Config.GPR_RESET, Config.GPR_RESET, Config.GPR_RESET, Config.GPR_RESET,
             Config.GPR_RESET, Config.GPR_RESET, Config.GPR_RESET, Config.SP_RESET]
  pc := Config.PC_RESET
  runState := .running
  out := []
  err := []
  exitStatus := none

end Sys2Proof.Machine
end

