-- ==== Sys2Proof/Machine/Memory.lean ====
section
/-! DEFINITION. `memory_array` as data: reading and writing one cell (20_memory.md R30, R31), in one canonical form. -/

namespace Sys2Proof.Machine

/-- What an address that the list does not hold reads as: the reset contents, `0x00` (10_state.md R25). -/
def Memory.unlisted : Byte := Config.MEM_RESET

/-- The byte at address `a`. -/
def Memory.read : Memory → Nat → Byte
  | [], _ => Memory.unlisted
  | (b, w) :: rest, a => if b = a then w else Memory.read rest a

/-- The memory without an entry for `a`. -/
def Memory.erase (m : Memory) (a : Nat) : Memory := m.filter (fun c => c.1 != a)

/-- The memory with an entry put in front of the first larger address. -/
def Memory.insert : Memory → Nat → Byte → Memory
  | [], a, v => [(a, v)]
  | (b, w) :: rest, a, v => if a < b then (a, v) :: (b, w) :: rest else (b, w) :: Memory.insert rest a v

/-- The memory after a write of `v` at `a`: no other cell changes (R31), and a cell that again reads as an unlisted
one has no entry. -/
def Memory.write (m : Memory) (a : Nat) (v : Byte) : Memory :=
  if v = Memory.unlisted then Memory.erase m a else Memory.insert (Memory.erase m a) a v

/-- The canonical form: addresses strictly rising and below 256 (R30), no entry that reads as an unlisted address. -/
abbrev Memory.wf (m : Memory) : Prop :=
  m.Pairwise (fun c d => c.1 < d.1) ∧ ∀ c ∈ m, c.1 < Config.MEM_SIZE ∧ c.2 ≠ Memory.unlisted

end Sys2Proof.Machine
end

