-- ==== Sys2Proof/Machine/Ops.lean ====
section
/-! DEFINITION. The named operations of the machine: the primitives of 00_scope.md R7 over registers, `pc`, memory and
the streams, the stack accesses of 43_stack.md R100, taking a fault (60_exceptions.md R127) and the halt. There is no
return from a fault to write: HALTED is terminal (R128). -/

namespace Sys2Proof.Machine

/-- `MemRead(addr, 1)`: the cell at `addr mod 256`, for any integer `addr` (R7, 20_memory.md R31, R32). -/
def State.memRead (s : State) (addr : Int) : Byte := Memory.read s.mem (narrow addr).toNat

/-- `MemWrite(addr, 1, v)`: the cell at `addr mod 256` becomes `v mod 256` (R7, R31, R32). -/
def State.memWrite (s : State) (addr v : Int) : State :=
  { s with mem := Memory.write s.mem (narrow addr).toNat (narrow v) }

/-- `x[i]` (R7). No register is hardwired (10_state.md R11). -/
def State.reg (s : State) (i : Fin 8) : Byte := s.regs[i]

/-- `x[i] <- v`: the register becomes `v mod 256` (R7, 10_state.md R14). -/
def State.setReg (s : State) (i : Fin 8) (v : Int) : State := { s with regs := s.regs.set i (narrow v) }

/-- `SP`, another spelling of `x[7]` (R7, 10_state.md R12). -/
def State.sp (s : State) : Byte := s.reg Config.SP_INDEX

/-- `SP <- v` (R7). -/
def State.setSp (s : State) (v : Int) : State := s.setReg Config.SP_INDEX v

/-- `pc <- t`: it becomes `t mod 256` (R7, 10_state.md R18). -/
def State.setPc (s : State) (t : Int) : State := { s with pc := narrow t }

/-- `pc <- pc + n` (10_state.md R17). -/
def State.advancePc (s : State) (n : Nat) : State := s.setPc (uval s.pc + n)

/-- `emit Out(v)`: append to the output stream (R7, 10_state.md R24). -/
def State.emitOut (s : State) (v : Byte) : State := { s with out := s.out ++ [v] }

/-- `emit Err(e)`: append to the error stream (R7, 10_state.md R24). -/
def State.emitErr (s : State) (e : ErrRecord) : State := { s with err := s.err ++ [e] }

/-- The transition to HALTED with the status the host is given (10_state.md R24, 60_exceptions.md R131). -/
def State.haltWith (s : State) (status : Nat) : State :=
  { s with runState := .halted, exitStatus := some status }

/-- `halt` (R7, 40_run_loop_and_hlt.md R77). -/
def State.halt (s : State) : State := s.haltWith Config.EXIT_STATUS_HLT

/-- TAKING A FAULT, for both faults: the record is appended, the machine halts, nothing else is written
(60_exceptions.md R127). -/
def State.raise (s : State) (e : ErrRecord) : State := (s.emitErr e).haltWith Config.EXIT_STATUS_FAULT

/-- `raise UnknownOpcode(ir, pc)` (60_exceptions.md R121). -/
def raiseUnknownOpcode (ir : Byte) (s : State) : Result := .next (s.raise (.unknownOpcode ir s.pc))

/-- `raise RegIndexFault(ir, pc, v)` (60_exceptions.md R122). -/
def raiseRegIndexFault (ir v : Byte) (s : State) : Result := .next (s.raise (.regIndex ir s.pc v))

/-- `SP <- SP - 1` (43_stack.md R100, R103). -/
def State.decSp (s : State) : State := s.setSp (uval s.sp - 1)

/-- `SP <- SP + 1` (43_stack.md R100, R103). -/
def State.incSp (s : State) : State := s.setSp (uval s.sp + 1)

/-- `MemWrite(SP, 1, v)` (43_stack.md R101, 44_call_ret.md R110). -/
def State.storeAtSp (s : State) (v : Int) : State := s.memWrite (uval s.sp) v

/-- `MemRead(SP, 1)` (43_stack.md R102, 44_call_ret.md R111). -/
def State.loadAtSp (s : State) : Byte := s.memRead (uval s.sp)

end Sys2Proof.Machine
end

