-- ==== Sys2Proof/Machine/Operands.lean ====
section
/-! DEFINITION. The operand kinds (30_encoding.md R52) and the register-index check (40_run_loop_and_hlt.md R74). -/

namespace Sys2Proof.Machine

/-- The register an operand byte names: the whole byte as an unsigned number, 0..7; none for 8..255 (R52). -/
def regIndex (v : Byte) : Option (Fin 8) := if h : v.toNat < 8 then some ⟨v.toNat, h⟩ else none

/-- An immediate operand: the whole byte, not extended, scaled or shifted (R52). -/
def immediate (b : Byte) : Int := uval b

/-- `require_reg(v)`, then `k` with the register that `v` names: an index above 7 raises RegIndexFault with the
instruction's opcode `ir` before anything is written (R74). -/
def requireReg (ir v : Byte) (s : State) (k : Fin 8 → Result) : Result :=
  match regIndex v with
  | some r => k r
  | none => raiseRegIndexFault ir v s

end Sys2Proof.Machine
end

