-- ==== Sys2Proof/Machine/Alu.lean ====
section
/-! DEFINITION. The alu_8bit (42_alu.md R90 to R94) and the two instructions that use it, ADD (R95) and MUL (R96).
The ALU sets no flag: the hardware has none (10_state.md R20), which is why there is no Machine/Flags.lean. -/

namespace Sys2Proof.Machine

/-- The operation selector: exactly three values, so the unsupported operation of R94 cannot be written down. -/
inductive AluOp where
  | add
  | sub
  | mul
deriving DecidableEq, Repr

/-- The exact result of an operation, before it is reduced modulo 256 (R91, R92, R93). -/
def aluExact : AluOp → Int → Int → Int
  | .add, va, vb => va + vb
  | .sub, va, vb => va - vb
  | .mul, va, vb => va * vb

/-- `alu(op, va, vb)`: the low 8 bits of the exact result (R91, R92, R93). -/
def alu (op : AluOp) (va vb : Byte) : Byte := narrow (aluExact op (uval va) (uval vb))

/-- `alu_apply(op, a, b)`: both registers are read, then the first is written (R90). -/
def aluApply (op : AluOp) (a b : Fin 8) (s : State) : State := s.setReg a (uval (alu op (s.reg a) (s.reg b)))

/-- ADD (R95). -/
def execAdd (a b : Byte) (s : State) : Result :=
  requireReg opcodeAdd a s fun ra =>
    requireReg opcodeAdd b s fun rb =>
      .next ((aluApply .add ra rb s).advancePc 3)

/-- MUL (R96). -/
def execMul (a b : Byte) (s : State) : Result :=
  requireReg opcodeMul a s fun ra =>
    requireReg opcodeMul b s fun rb =>
      .next ((aluApply .mul ra rb s).advancePc 3)

end Sys2Proof.Machine
end

