-- ==== Sys2Proof/Machine/Basic.lean ====
section
/-! DEFINITION. HLT (40_run_loop_and_hlt.md R77), LDI and PRN (41_ldi_prn.md R85, R86). -/

namespace Sys2Proof.Machine

/-- HLT (R77): `pc` stays at the HLT opcode (the spec's decision D5). -/
def execHlt (s : State) : Result := .next s.halt

/-- LDI (R85). -/
def execLdi (a b : Byte) (s : State) : Result :=
  requireReg opcodeLdi a s fun ra =>
    .next ((s.setReg ra (immediate b)).advancePc 3)

/-- PRN (R86). -/
def execPrn (a : Byte) (s : State) : Result :=
  requireReg opcodePrn a s fun ra =>
    .next ((s.emitOut (s.reg ra)).advancePc 2)

end Sys2Proof.Machine
end

