-- ==== Sys2Proof/Machine/CallRet.lean ====
section
/-! DEFINITION. CALL and RET (44_call_ret.md R110, R111). Neither receives a further `pc` advance (R112). -/

namespace Sys2Proof.Machine

/-- CALL (R110): `pc` is still the address of the CALL opcode when `pc + 2` is stored; the target is read after the
decrement (the spec's decision D16). -/
def execCall (a : Byte) (s : State) : Result :=
  requireReg opcodeCall a s fun ra =>
    let s1 := s.decSp
    let s2 := s1.storeAtSp (uval s1.pc + 2)
    .next (s2.setPc (uval (s2.reg ra)))

/-- RET (R111). -/
def execRet (s : State) : Result :=
  let s1 := s.setPc (uval s.loadAtSp)
  .next s1.incSp

end Sys2Proof.Machine
end

