-- ==== Sys2Proof/Machine/Stack.lean ====
section
/-! DEFINITION. PUSH and POP (43_stack.md R101, R102). The statements of each run one after the other, each seeing the
writes of those before it (the spec's decision D16). -/

namespace Sys2Proof.Machine

/-- PUSH (R101): the register is read after the decrement. -/
def execPush (a : Byte) (s : State) : Result :=
  requireReg opcodePush a s fun ra =>
    let s1 := s.decSp
    let s2 := s1.storeAtSp (uval (s1.reg ra))
    .next (s2.advancePc 2)

/-- POP (R102): the increment comes after the register is loaded. -/
def execPop (a : Byte) (s : State) : Result :=
  requireReg opcodePop a s fun ra =>
    let s1 := s.setReg ra (uval s.loadAtSp)
    let s2 := s1.incSp
    .next (s2.advancePc 2)

end Sys2Proof.Machine
end

