-- ==== Sys2Proof/Machine/RunLoop.lean ====
section
/-! DEFINITION. The parts of the run loop that are not an instruction: the fetch (40_run_loop_and_hlt.md R71, R72), the
decoding of what was fetched, the end of stepping, and placing bytes where the next fetch reads. -/

namespace Sys2Proof.Machine

/-- The three bytes of a step, which do not survive it (10_state.md R22). -/
structure Fetched where
  ir       : Byte
  operandA : Byte
  operandB : Byte
deriving DecidableEq, Repr

/-- The fetch: the opcode at `pc`, and the two bytes after it for every opcode (R71, R72; 20_memory.md R44). -/
def fetch (s : State) : Fetched where
  ir := s.memRead (uval s.pc)
  operandA := s.memRead (uval s.pc + 1)
  operandB := s.memRead (uval s.pc + 2)

/-- The instruction at `pc`, or why the bytes there are none. -/
def decodeAt (s : State) : Except DecodeError Instr :=
  decodeFetched (fetch s).ir (fetch s).operandA (fetch s).operandB

/-- What a step does when the fetched bytes are no instruction: UnknownOpcode with the byte at `pc` (R70,
60_exceptions.md R121). -/
def stepUndecoded (s : State) : Result := raiseUnknownOpcode (fetch s).ir s

/-- What the model answers to a step in HALTED, where the hardware has none (10_state.md R19). -/
def stepHalted (_ : State) : Result := .fault .halted

/-- The state with the three bytes of a table word (see `tableByte`) written at `pc`, `pc + 1` and `pc + 2`, where the
next fetch reads them. -/
def placeAtFetch (s : State) (nbits w : Nat) : State :=
  ((s.memWrite (uval s.pc) (uval (tableByte nbits w 0))).memWrite (uval s.pc + 1)
    (uval (tableByte nbits w 1))).memWrite (uval s.pc + 2) (uval (tableByte nbits w 2))

end Sys2Proof.Machine
end

