-- ==== Sys2Proof/Machine/Step.lean ====
section
/-! DEFINITION. One step (40_run_loop_and_hlt.md R70). -/

namespace Sys2Proof.Machine

/-- One step: in RUNNING, fetch, decode and perform the instruction's rule or raise UnknownOpcode (R70); in HALTED
there is none. -/
def step (s : State) : Host.Outcome State Fault Refusal :=
  match s.runState with
  | .halted => stepHalted s
  | .running =>
    match decodeAt s with
    | .ok i => exec i s
    | .error _ => stepUndecoded s

/-- The state with the instruction whose bits are `w` stored where `step` fetches its next instruction. -/
def State.withFetchWord (s : State) (nbits w : Nat) : State := placeAtFetch s nbits w

end Sys2Proof.Machine
end

