-- ==== Sys2Proof/Machine/HostSide.lean ====
section
/-! DEFINITION. What stands around the core: the launch (70_reset_and_hazards.md R140, R142), the image file's text form
(30_encoding.md R60) and the text the two collaborators make of the streams (41_ldi_prn.md R86, 60_exceptions.md R132).
`step` uses none of it. -/

namespace Sys2Proof.Machine

/-- Why a launch is refused (60_exceptions.md R124, decision D14). Then no run exists. -/
inductive LaunchRefusal where
  /-- The image has more than 256 bytes. -/
  | imageTooLong
  /-- A line of the image file is not eight characters `0` or `1`. -/
  | malformedLine
deriving DecidableEq, Repr

/-- Write bytes to memory at ascending addresses, as the loader does (R142). -/
def writeFrom (s : State) (addr : Nat) : List Byte → State
  | [] => s
  | b :: rest => writeFrom (s.memWrite addr (uval b)) (addr + 1) rest

/-- The load: the image is written from address 0, and nothing but memory is written; an image of more than 256 bytes
is refused (R142, decision D14). -/
def load (image : List Byte) (s : State) : Except LaunchRefusal State :=
  if image.length ≤ Config.MEM_SIZE then .ok (writeFrom s (Config.PC_RESET).toNat image) else .error .imageTooLong

/-- The launch state: reset, then load (R140). Steps begin after it. -/
def launch (image : List Byte) : Except LaunchRefusal State := load image State.reset

/-- Space, tab and carriage return: what is stripped from the ends of a line (DEDUCED; log entry 13). -/
def isBlank (c : Char) : Bool := c == ' ' || c == '\t' || c == '\r'

/-- What is left of a line of the image file: nothing from `#` on, no blanks at the ends (R60). -/
def stripLine (line : List Char) : List Char :=
  (((line.takeWhile (fun c => c != '#')).dropWhile isBlank).reverse.dropWhile isBlank).reverse

/-- The value of a string of `0` and `1`, the leftmost character the most significant bit; none if another character
stands in it. -/
def binaryValue (cs : List Char) : Option Nat :=
  cs.foldl (fun acc c => acc.bind fun n =>
    if c = '0' then some (2 * n) else if c = '1' then some (2 * n + 1) else none) (some 0)

/-- The byte of an eight-character binary literal (R60). -/
def parseByte (cs : List Char) : Option Byte :=
  if cs.length = 8 then (binaryValue cs).map (BitVec.ofNat 8) else none

/-- The bytes of the lines of an image file: blank lines take no address, a line that does not parse refuses the launch
(R60, 60_exceptions.md R124). -/
def parseLines : List (List Char) → Except LaunchRefusal (List Byte)
  | [] => .ok []
  | line :: rest =>
    match stripLine line with
    | [] => parseLines rest
    | cs =>
      match parseByte cs with
      | none => .error .malformedLine
      | some b =>
        match parseLines rest with
        | .ok bs => .ok (b :: bs)
        | .error e => .error e

/-- The lines of a text, cut at line feeds and at nothing else. DESIGN CHOICE (log entry 19): R60 says one
instruction-byte per line and does not say what ends a line. -/
def splitLines (text : List Char) : List (List Char) :=
  text.foldr (fun c acc => if c = '\n' then [] :: acc else
    match acc with
    | [] => [[c]]
    | l :: ls => (c :: l) :: ls) [[]]

/-- The image in the text of an image file (R60). -/
def parseImage (text : List Char) : Except LaunchRefusal (List Byte) := parseLines (splitLines text)

/-- One decimal digit. -/
def digitChar (n : Nat) : Char := Char.ofNat ('0'.toNat + n)

/-- The numeral of `n < 1000` in base ten: no sign, no leading zero, no padding (R86). -/
def decimal (n : Nat) : List Char :=
  if n < 10 then [digitChar n]
  else if n < 100 then [digitChar (n / 10), digitChar (n % 10)]
  else [digitChar (n / 100), digitChar (n / 10 % 10), digitChar (n % 10)]

/-- What the output collaborator shows for a byte of `out`: its decimal numeral and one line feed (R86, decision D8). -/
def outText (v : Byte) : List Char := decimal v.toNat ++ ['\n']

/-- What the error collaborator shows for a record. The numbers' form and the line end are the open parameter of
decision D9; the text for RegIndex is the collaborator's own (R132). -/
def errText : ErrRecord → List Char
  | .unknownOpcode ir pc =>
    "Error: Unknown instruction ".toList ++ Config.ERR_NUM_FORMAT.opcodeText ir ++ " at ".toList ++
      Config.ERR_NUM_FORMAT.pcText pc ++ Config.ERR_NUM_FORMAT.lineEnd
  | .regIndex ir pc v => Config.REGINDEX_TEXT ir pc v

end Sys2Proof.Machine
end

