-- ==== Sys2Proof/Safety.lean ====
section
/-! DEFINITION. What claims about the machine are stated in: how a run ends, the invariant, what a fault leaves, and what
an instruction leaves unchanged. -/

namespace Sys2Proof.Machine

/-- The next state an outcome holds, if it holds one. -/
def nextOf : Result → Option State
  | .next s => some s
  | .fault _ => none
  | .refused _ => none

/-- The outcome with its next state changed by `f`. -/
def mapNext (f : State → State) : Result → Result
  | .next s => .next (f s)
  | .fault r => .fault r
  | .refused r => .refused r

/-- `t` is reached from `s` by some number of steps: the repetition of the step, with no limit on their number
(40_run_loop_and_hlt.md R76). -/
inductive Reaches : State → State → Prop where
  | refl (s : State) : Reaches s s
  | more {s t u : State} (hst : Reaches s t) (htu : step t = .next u) : Reaches s u

/-- The run has ended (40_run_loop_and_hlt.md R78). -/
abbrev State.Ended (s : State) : Prop := s.runState = .halted

/-- The run ended by HLT: `err` is empty (R78). Claims about a program's result are about such a state
(60_exceptions.md R134). -/
abbrev State.EndedNormally (s : State) : Prop := s.Ended ∧ s.err = []

/-- The run ended by a fault: `err` holds a record (R78). -/
abbrev State.EndedByFault (s : State) : Prop := s.Ended ∧ s.err ≠ []

/-- What the observables say of the run state (10_state.md R24, 60_exceptions.md R131): nothing while RUNNING; status 1
and at most one record when HALTED. -/
abbrev State.StatusCoherent (s : State) : Prop :=
  (s.runState = .running → s.err = [] ∧ s.exitStatus = none) ∧
  (s.runState = .halted → s.err.length ≤ 1 ∧ s.exitStatus = some 1)

/-- The invariant: memory in its canonical form, and coherent observables. -/
abbrev State.Inv (s : State) : Prop := Memory.wf s.mem ∧ s.StatusCoherent

/-- `t` is what the fault with record `e` leaves of `s`: the record, HALTED, status 1, and nothing else written
(60_exceptions.md R127). -/
structure FaultTaken (s t : State) (e : ErrRecord) : Prop where
  err        : t.err = s.err ++ [e]
  runState   : t.runState = .halted
  exitStatus : t.exitStatus = some 1
  mem        : t.mem = s.mem
  regs       : t.regs = s.regs
  pc         : t.pc = s.pc
  out        : t.out = s.out

/-- Every register outside `ws` is as before. -/
def SameRegsExcept (ws : List (Fin 8)) (s t : State) : Prop := ∀ q, q ∉ ws → t.reg q = s.reg q

/-- Every byte of memory outside the addresses `ws` reads as before. -/
def SameMemoryExcept (ws : List Byte) (s t : State) : Prop := ∀ a : Byte, a ∉ ws → t.memRead (uval a) = s.memRead (uval a)

/-- The run state, the error stream and the exit status are as before. -/
structure SameStatus (s t : State) : Prop where
  runState   : t.runState = s.runState
  err        : t.err = s.err
  exitStatus : t.exitStatus = s.exitStatus

/-- The two states agree in everything that is state, the observables apart (10_state.md R10). -/
structure SameArchitecture (s t : State) : Prop where
  mem      : t.mem = s.mem
  regs     : t.regs = s.regs
  pc       : t.pc = s.pc
  runState : t.runState = s.runState

end Sys2Proof.Machine
end

