-- ==== Sys2Proof/Certificates/Slice0/Obligations.lean ====
section
/-! DEFINITION. The statements about the model, each from the rules of spec/ that its docstring names. A clause the spec
marks as its own decision (D<n> of 92_eei_decisions.md) or derivation is named as such. -/

open Sys2Proof Sys2Proof.Machine

/-! ## Reset, registers, memory -/

/-- 10_state.md R25: the values the document itself gives for memory, R7, `pc` and the run state; and, by the spec's own
derivation (R25 marks these rows so), `out` and `err` empty and no exit status (log entry 9). (R0 to R6 are zero by the
spec's decision D4, log entry 6; that clause is `GeneralRegistersResetToZero`.) -/
def Obligations.ResetLeavesDocumentedValues : Prop :=
  (∀ a : Byte, State.reset.memRead (uval a) = 0x00) ∧ (State.reset.reg 7).toNat = 244 ∧
  State.reset.pc = 0x00 ∧ State.reset.runState = .running ∧
  State.reset.out = [] ∧ State.reset.err = [] ∧ State.reset.exitStatus = none

/-- The spec's decision D4 (log entry 6), not the source's words: R0 to R6 reset to zero. -/
def Obligations.GeneralRegistersResetToZero : Prop :=
  ∀ i : Fin 8, i ≠ 7 → State.reset.reg i = 0x00

/-- 10_state.md R14: a register write stores any integer modulo 256, and R11: it is read back, with no hardwired
register and no aliasing. -/
def Obligations.RegisterWriteMasksAndReadsBack : Prop :=
  ∀ (s : State) (i : Fin 8) (v : Int),
    (((s.setReg i v).reg i).toNat : Int) = v % 256 ∧ (∀ j, j ≠ i → (s.setReg i v).reg j = s.reg j) ∧
    (s.setReg i v).mem = s.mem ∧ (s.setReg i v).pc = s.pc

/-- 20_memory.md R31: for any integers, `MemWrite` makes one cell the value modulo 256 and changes no other, and
`MemRead` reads the cell at the address modulo 256. -/
def Obligations.MemoryWriteChangesOneCell : Prop :=
  ∀ (s : State) (addr v b : Int),
    (b % 256 = addr % 256 → (((s.memWrite addr v).memRead b).toNat : Int) = v % 256) ∧
    (b % 256 ≠ addr % 256 → (s.memWrite addr v).memRead b = s.memRead b) ∧
    s.memRead addr = s.memRead (addr % 256)

/-- The model's canonical form (log entry 10) makes equal memories equal data: two canonical memories that read alike
at all 256 addresses are one list. -/
def Obligations.CanonicalMemoriesReadingAlikeAreEqual : Prop :=
  ∀ m m' : Memory, Memory.wf m → Memory.wf m' → (∀ a < 256, Memory.read m a = Memory.read m' a) → m = m'

/-! ## Encoding and decoding -/

/-- 30_encoding.md R53: words written out from the binary column of the dispatch table decode to their instructions. -/
def Obligations.TableWordsDecode : Prop :=
  decodeTableWord 8 0b00000001 = some .hlt ∧
  decodeTableWord 24 0b00001001_00000001_10000010 = some (.ldi 1 9) ∧
  decodeTableWord 16 0b00000110_01000111 = some (.prn 6) ∧
  decodeTableWord 24 0b00000001_00000000_10100000 = some (.add 0 1) ∧
  decodeTableWord 24 0b00000010_00000101_10100010 = some (.mul 5 2) ∧
  decodeTableWord 16 0b00000011_01000101 = some (.push 3) ∧
  decodeTableWord 16 0b00000010_01000110 = some (.pop 2) ∧
  decodeTableWord 16 0b00000001_01010000 = some (.call 1) ∧
  decodeTableWord 8 0b00010001 = some .ret

/-- 30_encoding.md R54, R55: the decoder matches the whole byte against the rows of R53, so it knows exactly the nine
opcode bytes, and the other 247 are unknown. -/
def Obligations.ExactlyNineOpcodesAreKnown : Prop :=
  (∀ (ir : Byte) (row : Row), instructionDecoder ir = some row ↔ row ∈ dispatchTable ∧ row.opcode = ir) ∧
  (∀ ir : Byte, (instructionDecoder ir).isSome = true ↔
    ir ∈ ([0x01, 0x82, 0x47, 0xA0, 0xA2, 0x45, 0x46, 0x50, 0x11] : List Byte)) ∧
  ((List.range 256).filter (fun n => (instructionDecoder (BitVec.ofNat 8 n)).isNone)).length = 247

/-- 30_encoding.md R50: every row is one opcode byte and as many operand bytes as it says, and no two rows share an
opcode (R54). -/
def Obligations.RowLengthsAndOpcodesAreConsistent : Prop :=
  (∀ r ∈ dispatchTable, r.length = 1 + r.operands ∧
    (r.format = .Z → r.operands = 0) ∧ (r.format = .R → r.operands = 1) ∧
    (r.format = .RI → r.operands = 2) ∧ (r.format = .RR → r.operands = 2)) ∧
  dispatchTable.Pairwise (fun r r' => r.opcode ≠ r'.opcode)

/-- 30_encoding.md R50 to R53: the bytes of an instruction, with any operand bytes, in front of any bytes, decode to it
and leave those bytes. -/
def Obligations.DecodeOfEncodeIsTheInstruction : Prop :=
  ∀ (i : Instr) (rest : List Byte), decode (encode i ++ rest) = .ok (i, rest)

/-- 20_memory.md R33, R46 and 40_run_loop_and_hlt.md R71, R72: an instruction stored at ascending addresses from `pc` on,
around the top of memory if need be, is what the machine fetches and decodes. -/
def Obligations.StoredInstructionIsFetched : Prop :=
  ∀ (i : Instr) (s : State), decodeAt (writeFrom s s.pc.toNat (encode i)) = .ok i

/-- 30_encoding.md R57: what decodes is spelled by the bytes it was decoded from, as many of them as the row says. -/
def Obligations.DecodedInstructionSpellsItsBytes : Prop :=
  ∀ (ir a b : Byte) (i : Instr), decodeFetched ir a b = .ok i →
    ∃ row, instructionDecoder ir = some row ∧ row.opcode = ir ∧ encode i = [ir, a, b].take row.length

/-- 30_encoding.md R51 and 40_run_loop_and_hlt.md R72: the bytes after a format Z or R instruction are read and ignored. -/
def Obligations.UnusedOperandBytesAreIgnored : Prop :=
  ∀ (ir a b a' b' : Byte) (i : Instr), decodeFetched ir a b = .ok i →
    ((operandsOf i).length = 0 → decodeFetched ir a' b' = .ok i) ∧
    ((operandsOf i).length = 1 → decodeFetched ir a b' = .ok i)

/-! ## The step -/

/-- 40_run_loop_and_hlt.md R71, R72: the fetch reads the byte at `pc` and the two after it, modulo 256, for every opcode. -/
def Obligations.FetchReadsThreeBytes : Prop :=
  ∀ s : State, (fetch s).ir = s.memRead s.pc.toNat ∧
    (fetch s).operandA = s.memRead ((s.pc.toNat + 1) % 256 : Nat) ∧
    (fetch s).operandB = s.memRead ((s.pc.toNat + 2) % 256 : Nat)

/-- 40_run_loop_and_hlt.md R70, R73: when the bytes at `pc` decode to `i`, a step in RUNNING is the rule of `i`, and
nothing is added to it. -/
def Obligations.StepRunsTheDecodedInstruction : Prop :=
  ∀ (s : State) (i : Instr), s.runState = .running → decodeAt s = .ok i → step s = exec i s

/-- 60_exceptions.md R121, 30_encoding.md R55: a byte at `pc` that is none of the nine opcodes raises UnknownOpcode,
whatever the operand bytes are, with the byte and its address. -/
def Obligations.UnknownOpcodeFaultIsTaken : Prop :=
  ∀ s : State, s.runState = .running →
    s.memRead (uval s.pc) ∉ ([0x01, 0x82, 0x47, 0xA0, 0xA2, 0x45, 0x46, 0x50, 0x11] : List Byte) →
    ∃ t, step s = .next t ∧ FaultTaken s t (.unknownOpcode (s.memRead (uval s.pc)) s.pc)

/-- 40_run_loop_and_hlt.md R74 and 60_exceptions.md R122, R126 (the spec's decision D3, log entry 4): an operand above 7
where a register index is meant raises RegIndexFault for the first such operand, and nothing is written. -/
def Obligations.RegIndexFaultIsTaken : Prop :=
  ∀ (i : Instr) (s : State) (v : Byte), i.regOperands.find? (fun o => decide (8 ≤ o.toNat)) = some v →
    ∃ t, exec i s = .next t ∧ FaultTaken s t (.regIndex (opcodeOf i) s.pc v)

/-- 10_state.md R19, 60_exceptions.md R128: in HALTED there is no step. (That the model answers the fault `halted` is its
own way to say so: log entry 2.) -/
def Obligations.HaltedStateHasNoStep : Prop :=
  ∀ s : State, s.runState = .halted → step s = .fault .halted

/-- 40_run_loop_and_hlt.md R70: in RUNNING every step has a next state, and it appends at most one item to `out` or
`err`. -/
def Obligations.RunningStepAppendsAtMostOneItem : Prop :=
  ∀ s : State, s.runState = .running → ∃ t, step s = .next t ∧
    ((t.out = s.out ∧ t.err = s.err) ∨ (∃ v, t.out = s.out ++ [v] ∧ t.err = s.err) ∨
     (∃ e, t.out = s.out ∧ t.err = s.err ++ [e]))

/-! ## The instructions -/

/-- 40_run_loop_and_hlt.md R77 (that `pc` stays is the spec's decision D5, log entry 8): HLT halts with status 1 and
writes nothing else. -/
def Obligations.HltHaltsAndWritesNothingElse : Prop :=
  ∀ (a b : Byte) (s : State), decodeFetched 0x01 a b = .ok .hlt ∧ ∃ t, exec .hlt s = .next t ∧ t.runState = .halted ∧ t.exitStatus = some 1 ∧
    t.mem = s.mem ∧ t.regs = s.regs ∧ t.pc = s.pc ∧ t.out = s.out ∧ t.err = s.err

/-- 41_ldi_prn.md R85: LDI copies the immediate to the register its first operand names, the stack pointer included;
an index above 7 raises RegIndexFault. -/
def Obligations.LdiLoadsTheImmediate : Prop :=
  ∀ (a b : Byte) (s : State), decodeFetched 0x82 a b = .ok (.ldi a b) ∧
    (∀ r : Fin 8, a.toNat = r.val → ∃ t, exec (.ldi a b) s = .next t ∧ t.reg r = b ∧
      t.pc.toNat = (s.pc.toNat + 3) % 256 ∧
      SameRegsExcept [r] s t ∧ SameMemoryExcept [] s t ∧ SameStatus s t ∧ t.out = s.out) ∧
    (7 < a.toNat → ∃ t, exec (.ldi a b) s = .next t ∧ FaultTaken s t (.regIndex 0x82 s.pc a))

/-- 41_ldi_prn.md R86, the core's part (the spec's decision D8, log entry 12): PRN appends the register's byte to `out`;
an index above 7 raises RegIndexFault and emits nothing. -/
def Obligations.PrnEmitsTheRegister : Prop :=
  ∀ (a b : Byte) (s : State), decodeFetched 0x47 a b = .ok (.prn a) ∧
    (∀ r : Fin 8, a.toNat = r.val → ∃ t, exec (.prn a) s = .next t ∧ t.out = s.out ++ [s.reg r] ∧
      t.pc.toNat = (s.pc.toNat + 2) % 256 ∧
      SameRegsExcept [] s t ∧ SameMemoryExcept [] s t ∧ SameStatus s t) ∧
    (7 < a.toNat → ∃ t, exec (.prn a) s = .next t ∧ FaultTaken s t (.regIndex 0x47 s.pc a))

/-- 42_alu.md R91, R93: the sum and the product modulo 256. -/
def Obligations.AluAddAndMulReduceModulo256 : Prop :=
  ∀ va vb : Byte, (alu .add va vb).toNat = (va.toNat + vb.toNat) % 256 ∧
    (alu .mul va vb).toNat = (va.toNat * vb.toNat) % 256

/-- 42_alu.md R92 (the spec's decision D11, log entry 11): the difference modulo 256, first minus second. -/
def Obligations.AluSubIsFirstMinusSecond : Prop :=
  ∀ va vb : Byte, ((alu .sub va vb).toNat : Int) = ((va.toNat : Int) - (vb.toNat : Int)) % 256

/-- 42_alu.md R97, items (1) to (3) (the spec's derivation): ADD and MUL commute and associate, MUL distributes over
ADD, SUB undoes ADD, and the byte is the low byte of the signed result too. -/
def Obligations.AluObeysModularArithmetic : Prop :=
  (∀ va vb, alu .add va vb = alu .add vb va ∧ alu .mul va vb = alu .mul vb va) ∧
  (∀ va vb vc, alu .add (alu .add va vb) vc = alu .add va (alu .add vb vc) ∧
    alu .mul (alu .mul va vb) vc = alu .mul va (alu .mul vb vc) ∧
    alu .mul va (alu .add vb vc) = alu .add (alu .mul va vb) (alu .mul va vc)) ∧
  (∀ va vb, alu .sub (alu .add va vb) vb = va) ∧
  (∀ va vb : Byte, (alu .add va vb).toInt = (va.toInt + vb.toInt).bmod 256 ∧
    (alu .sub va vb).toInt = (va.toInt - vb.toInt).bmod 256 ∧
    (alu .mul va vb).toInt = (va.toInt * vb.toInt).bmod 256)

/-- 42_alu.md R97, item (4), and R90: with one register as both operands the ALU doubles, squares or clears it, and no
other register changes. -/
def Obligations.AluApplyWithOneRegisterReadsTheOldValue : Prop :=
  ∀ (a : Fin 8) (s : State),
    ((aluApply .add a a s).reg a).toNat = (2 * (s.reg a).toNat) % 256 ∧
    ((aluApply .mul a a s).reg a).toNat = ((s.reg a).toNat * (s.reg a).toNat) % 256 ∧
    (aluApply .sub a a s).reg a = 0 ∧
    (∀ op, SameRegsExcept [a] s (aluApply op a a s))

/-- 42_alu.md R95: ADD leaves the sum modulo 256 in its first register, both operands read first; the first operand
above 7, else the second, raises RegIndexFault. -/
def Obligations.AddLeavesTheSum : Prop :=
  ∀ (a b : Byte) (s : State), decodeFetched 0xA0 a b = .ok (.add a b) ∧
    (∀ ra rb : Fin 8, a.toNat = ra.val → b.toNat = rb.val → ∃ t, exec (.add a b) s = .next t ∧
      (t.reg ra).toNat = ((s.reg ra).toNat + (s.reg rb).toNat) % 256 ∧
      t.pc.toNat = (s.pc.toNat + 3) % 256 ∧
      SameRegsExcept [ra] s t ∧ SameMemoryExcept [] s t ∧ SameStatus s t ∧ t.out = s.out) ∧
    (7 < a.toNat → ∃ t, exec (.add a b) s = .next t ∧ FaultTaken s t (.regIndex 0xA0 s.pc a)) ∧
    (a.toNat ≤ 7 → 7 < b.toNat → ∃ t, exec (.add a b) s = .next t ∧ FaultTaken s t (.regIndex 0xA0 s.pc b))

/-- 42_alu.md R96: MUL leaves the low byte of the product in its first register, both operands read first; the first
operand above 7, else the second, raises RegIndexFault. -/
def Obligations.MulLeavesTheLowProduct : Prop :=
  ∀ (a b : Byte) (s : State), decodeFetched 0xA2 a b = .ok (.mul a b) ∧
    (∀ ra rb : Fin 8, a.toNat = ra.val → b.toNat = rb.val → ∃ t, exec (.mul a b) s = .next t ∧
      (t.reg ra).toNat = ((s.reg ra).toNat * (s.reg rb).toNat) % 256 ∧
      t.pc.toNat = (s.pc.toNat + 3) % 256 ∧
      SameRegsExcept [ra] s t ∧ SameMemoryExcept [] s t ∧ SameStatus s t ∧ t.out = s.out) ∧
    (7 < a.toNat → ∃ t, exec (.mul a b) s = .next t ∧ FaultTaken s t (.regIndex 0xA2 s.pc a)) ∧
    (a.toNat ≤ 7 → 7 < b.toNat → ∃ t, exec (.mul a b) s = .next t ∧ FaultTaken s t (.regIndex 0xA2 s.pc b))

/-- 43_stack.md R101, R103: PUSH decrements SP modulo 256 and stores the register at the new SP. (`PUSH R7` stores the
decremented SP: the spec's decision D16, log entry 7.) -/
def Obligations.PushStoresBelowTheStackTop : Prop :=
  ∀ (a b : Byte) (r : Fin 8) (s : State), a.toNat = r.val → decodeFetched 0x45 a b = .ok (.push a) ∧
    ∃ t, exec (.push a) s = .next t ∧
    ((t.reg 7).toNat : Int) = ((s.reg 7).toNat - 1 : Int) % 256 ∧
    t.memRead ((s.reg 7).toNat - 1 : Int) = (if r = 7 then t.reg 7 else s.reg r) ∧
    t.pc.toNat = (s.pc.toNat + 2) % 256 ∧
    SameRegsExcept [7] s t ∧ SameMemoryExcept [s.decSp.sp] s t ∧ SameStatus s t ∧ t.out = s.out

/-- 43_stack.md R102, R103: POP loads the register from the old SP and increments SP modulo 256; memory is not written.
(`POP R7` increments the loaded byte: the spec's decision D16, log entry 7.) -/
def Obligations.PopLoadsTheStackTop : Prop :=
  ∀ (a b : Byte) (r : Fin 8) (s : State), a.toNat = r.val → decodeFetched 0x46 a b = .ok (.pop a) ∧
    ∃ t, exec (.pop a) s = .next t ∧
    (r ≠ 7 → t.reg r = s.memRead (s.reg 7).toNat ∧ (t.reg 7).toNat = ((s.reg 7).toNat + 1) % 256) ∧
    (r = 7 → (t.reg 7).toNat = ((s.memRead (s.reg 7).toNat).toNat + 1) % 256) ∧
    t.pc.toNat = (s.pc.toNat + 2) % 256 ∧
    SameRegsExcept [r, 7] s t ∧ SameMemoryExcept [] s t ∧ SameStatus s t ∧ t.out = s.out

/-- 44_call_ret.md R110: CALL decrements SP, stores the return address `pc + 2` there and goes to the register's value.
(`CALL R7` goes to the decremented SP: the spec's decision D16, log entry 7.) -/
def Obligations.CallStoresTheReturnAddress : Prop :=
  ∀ (a b : Byte) (r : Fin 8) (s : State), a.toNat = r.val → decodeFetched 0x50 a b = .ok (.call a) ∧
    ∃ t, exec (.call a) s = .next t ∧
    ((t.reg 7).toNat : Int) = ((s.reg 7).toNat - 1 : Int) % 256 ∧
    (t.memRead ((s.reg 7).toNat - 1 : Int)).toNat = (s.pc.toNat + 2) % 256 ∧
    t.pc = (if r = 7 then t.reg 7 else s.reg r) ∧
    SameRegsExcept [7] s t ∧ SameMemoryExcept [s.decSp.sp] s t ∧ SameStatus s t ∧ t.out = s.out

/-- 44_call_ret.md R111: RET takes `pc` from the old SP, adds nothing to it, and increments SP modulo 256; memory is not
written. -/
def Obligations.RetTakesThePcFromTheStack : Prop :=
  ∀ (a b : Byte) (s : State), decodeFetched 0x11 a b = .ok .ret ∧ ∃ t, exec .ret s = .next t ∧
    t.pc = s.memRead (s.reg 7).toNat ∧ (t.reg 7).toNat = ((s.reg 7).toNat + 1) % 256 ∧
    SameRegsExcept [7] s t ∧ SameMemoryExcept [] s t ∧ SameStatus s t ∧ t.out = s.out

/-! ## Frames, on every path that gives a next state -/

/-- 10_state.md R13 and 20_memory.md R43 (both the spec's own derivation), and for the output and status clauses
41_ldi_prn.md R85, 42_alu.md R95, R96 and 40_run_loop_and_hlt.md R75: LDI, ADD and MUL write no register but the one
their first operand names, no byte of memory and no output; only a RegIndexFault (the spec's decision D3, log entry 4)
touches the status. -/
def Obligations.LdiAddMulFrame : Prop :=
  ∀ (a b : Byte) (i : Instr) (s t : State), (i = .ldi a b ∨ i = .add a b ∨ i = .mul a b) → exec i s = .next t →
    (∀ q : Fin 8, q.val ≠ a.toNat → t.reg q = s.reg q) ∧ SameMemoryExcept [] s t ∧ t.out = s.out ∧
    (i.wellFormed = true → SameStatus s t)

/-- 10_state.md R13 and 20_memory.md R43 (both the spec's own derivation): HLT and PRN write no register and no byte of
memory. 40_run_loop_and_hlt.md R77: HLT writes no stream, nor `pc` (that `pc` stays is the spec's decision D5, log entry 8).
41_ldi_prn.md R86, 40_run_loop_and_hlt.md R75: PRN touches the status only when it raises RegIndexFault (the
spec's decision D3, log entry 4). -/
def Obligations.HltPrnFrame : Prop :=
  ∀ (a : Byte) (i : Instr) (s t : State), (i = .hlt ∨ i = .prn a) → exec i s = .next t →
    SameRegsExcept [] s t ∧ SameMemoryExcept [] s t ∧
    (i = .hlt → t.out = s.out ∧ t.err = s.err ∧ t.pc = s.pc) ∧
    (i = .prn a → i.wellFormed = true → SameStatus s t)

/-- 10_state.md R13 and 20_memory.md R43 (both the spec's own derivation), and for the output and status clauses
43_stack.md R101, 44_call_ret.md R110 and 40_run_loop_and_hlt.md R75: PUSH and CALL write no register but SP, no byte
of memory but the one at the decremented SP, and no output; only a RegIndexFault (the spec's decision D3, log entry 4)
touches the status. -/
def Obligations.PushCallFrame : Prop :=
  ∀ (a : Byte) (i : Instr) (s t : State), (i = .push a ∨ i = .call a) → exec i s = .next t →
    SameRegsExcept [7] s t ∧ SameMemoryExcept [s.decSp.sp] s t ∧ t.out = s.out ∧
    (i.wellFormed = true → SameStatus s t)

/-- 10_state.md R13 and 20_memory.md R43 (both the spec's own derivation), and for the output and status clauses
43_stack.md R102, 44_call_ret.md R111 and 40_run_loop_and_hlt.md R75: POP and RET write no register but SP and the one
POP's operand names, no byte of memory and no output; only a RegIndexFault (the spec's decision D3, log entry 4)
touches the status. -/
def Obligations.PopRetFrame : Prop :=
  ∀ (a : Byte) (i : Instr) (s t : State), (i = .pop a ∨ i = .ret) → exec i s = .next t →
    (∀ q : Fin 8, q ≠ 7 → ¬ (i = .pop a ∧ q.val = a.toNat) → t.reg q = s.reg q) ∧
    SameMemoryExcept [] s t ∧ t.out = s.out ∧ (i.wellFormed = true → SameStatus s t)

/-! ## Two instructions in a row -/

/-- 43_stack.md R102 (the spec derives the case of R7): a POP right after a PUSH of the same register, any of the eight,
leaves all registers as they were. -/
def Obligations.PushThenPopRestoresTheRegisters : Prop :=
  ∀ (a : Byte) (r : Fin 8) (s : State), a.toNat = r.val →
    ∃ t u, exec (.push a) s = .next t ∧ exec (.pop a) t = .next u ∧ u.regs = s.regs ∧
      u.pc.toNat = (s.pc.toNat + 4) % 256

/-- 44_call_ret.md R111: a RET right after a CALL goes to the instruction after the CALL's operand byte, `call_pc + 2`
modulo 256, with all registers as they were. -/
def Obligations.CallThenRetResumesAfterTheCall : Prop :=
  ∀ (a : Byte) (r : Fin 8) (s : State), a.toNat = r.val →
    ∃ t u, exec (.call a) s = .next t ∧ exec .ret t = .next u ∧ u.pc.toNat = (s.pc.toNat + 2) % 256 ∧
      u.regs = s.regs

/-- 44_call_ret.md R113 (the spec's derivation): PUSH then RET is a jump to the register's value, with all registers as
they were; for R7 the value is the decremented SP (decision D16, log entry 7). -/
def Obligations.PushThenRetIsAJump : Prop :=
  ∀ (a : Byte) (r : Fin 8) (s : State), a.toNat = r.val →
    ∃ t u, exec (.push a) s = .next t ∧ exec .ret t = .next u ∧ u.regs = s.regs ∧
      (r ≠ 7 → u.pc = s.reg r) ∧ (r = 7 → u.pc = s.decSp.sp)

/-- 20_memory.md R41 (the spec's derivation): a byte that PUSH stored where the next opcode is fetched is the opcode
that is fetched; any other opcode is fetched as before. -/
def Obligations.PushedByteIsSeenByTheNextFetch : Prop :=
  ∀ (a : Byte) (r : Fin 8) (s : State), a.toNat = r.val → ∃ t, exec (.push a) s = .next t ∧
    (t.pc = t.reg 7 → (fetch t).ir = s.decSp.reg r) ∧
    (t.pc ≠ t.reg 7 → (fetch t).ir = s.memRead (uval t.pc))

/-! ## Rules of the whole machine -/

/-- 10_state.md R17 (HLT's row is the spec's decision D5, log entry 8; the wrap is D2, log entry 5): where every
instruction leaves `pc`. -/
def Obligations.PcAfterEveryInstruction : Prop :=
  ∀ (i : Instr) (s t : State), exec i s = .next t →
    (i.wellFormed = false → t.pc = s.pc) ∧
    (i.wellFormed = true →
      match i with
      | .hlt => t.pc = s.pc
      | .ldi _ _ | .add _ _ | .mul _ _ => t.pc.toNat = (s.pc.toNat + 3) % 256
      | .prn _ | .push _ | .pop _ => t.pc.toNat = (s.pc.toNat + 2) % 256
      | .call a => ∀ r : Fin 8, a.toNat = r.val → t.pc = s.decSp.reg r
      | .ret => t.pc = s.memRead (uval s.sp))

/-- 20_memory.md R43, R35 (the spec's derivation): a step changes no byte of memory but one, at `(SP - 1) mod 256`, and
only if the opcode is that of PUSH or CALL. -/
def Obligations.OnlyPushAndCallChangeMemory : Prop :=
  ∀ (s t : State) (n : Int), step s = .next t → t.memRead n ≠ s.memRead n →
    (s.memRead (uval s.pc) = 0x45 ∨ s.memRead (uval s.pc) = 0x50) ∧ n % 256 = (uval s.sp - 1) % 256

/-- 10_state.md R13 (the spec's derivation): a step changes a register only if the instruction names it as destination,
or it is SP and the instruction is PUSH, POP, CALL or RET. -/
def Obligations.OnlyNamedRegistersAndSpChange : Prop :=
  ∀ (s t : State) (q : Fin 8), step s = .next t → t.reg q ≠ s.reg q →
    (q = 7 ∧ (fetch s).ir ∈ ([0x45, 0x46, 0x50, 0x11] : List Byte)) ∨
    (q.val = (fetch s).operandA.toNat ∧ (fetch s).ir ∈ ([0x82, 0xA0, 0xA2, 0x46] : List Byte))

/-- 10_state.md R19, 60_exceptions.md R120: a step goes from RUNNING to HALTED exactly when it executes HLT or raises a
fault. -/
def Obligations.HaltedIsReachedByHltOrFaultOnly : Prop :=
  ∀ s t : State, step s = .next t →
    s.runState = .running ∧
    (t.runState = .halted ↔ (s.memRead (uval s.pc) = 0x01 ∨ t.err ≠ s.err))

/-- 40_run_loop_and_hlt.md R75, 60_exceptions.md R127: a step that raises a fault writes nothing but the fault's own
record, run state and status. -/
def Obligations.FaultsArePrecise : Prop :=
  ∀ s t : State, step s = .next t → t.err ≠ s.err → ∃ e, FaultTaken s t e

/-- 40_run_loop_and_hlt.md R78 (the spec's decision D7, log entry 8): a run with no record so far ends normally exactly
when its last step executed HLT, and its status is 1 either way. -/
def Obligations.NormalEndIsAnEndByHlt : Prop :=
  ∀ s t : State, s.err = [] → step s = .next t → t.runState = .halted →
    (t.EndedNormally ↔ s.memRead (uval s.pc) = 0x01) ∧ t.exitStatus = some 1

/-- The invariant, kept by every step from every state that meets it. Memory stays canonical: that form is the model's
DESIGN CHOICE, log entry 10, and its bound on addresses is the 256 cells of 20_memory.md R30. The observables stay coherent
with the run state (10_state.md R24); that the status is 1 is 60_exceptions.md R131 with the spec's decision D10, log
entry 9. -/
def Obligations.EveryStepKeepsTheInvariant : Prop :=
  ∀ s t : State, s.Inv → step s = .next t → t.Inv

/-- The reset state meets the invariant: its memory is canonical, the form being the model's DESIGN CHOICE, log entry 10,
and its observables are those of a RUNNING machine (10_state.md R25, by the spec's own derivation; log entry 9). -/
def Obligations.ResetMeetsTheInvariant : Prop := State.reset.Inv

/-- 10_state.md R10, R24: no instruction reads the observables. Two states that agree in all but them take steps that
agree in all but them, append the same items, and stop alike. -/
def Obligations.ObservablesNeverInfluenceAStep : Prop :=
  ∀ s s' : State, SameArchitecture s s' →
    (∀ t, step s = .next t → ∃ t' newOut newErr, step s' = .next t' ∧ SameArchitecture t t' ∧
      t.out = s.out ++ newOut ∧ t'.out = s'.out ++ newOut ∧
      t.err = s.err ++ newErr ∧ t'.err = s'.err ++ newErr ∧
      (t.runState = .halted → t'.exitStatus = t.exitStatus)) ∧
    (∀ f, step s = .fault f → step s' = .fault f)

/-- 10_state.md R13 (the spec's derivation): a register other than SP that no operand names is neither read nor
written. Changing it before the instruction is changing it after, whatever the instruction does. -/
def Obligations.UnnamedRegisterIsInvisible : Prop :=
  ∀ (i : Instr) (s : State) (k : Fin 8) (v : Int), k ≠ 7 → (∀ o ∈ i.regOperands, o.toNat ≠ k.val) →
    exec i (s.setReg k v) = mapNext (fun t => t.setReg k v) (exec i s)

/-! ## The host's side -/

/-- 70_reset_and_hazards.md R140, R142 (the size bound is the spec's decision D14, log entry 13): the launch state holds
the image from address 0 and zeros after it, and every other piece of state at its reset value; an image of more than
256 bytes is refused. The launch state meets the invariant, whose canonical form of memory is the model's DESIGN CHOICE,
log entry 10. -/
def Obligations.LaunchHoldsTheImage : Prop :=
  ∀ image : List Byte,
    (image.length ≤ 256 → ∃ s, launch image = .ok s ∧
      (∀ n : Nat, n < 256 → s.memRead n = image.getD n 0x00) ∧
      s.regs = State.reset.regs ∧ s.pc = 0 ∧ s.runState = .running ∧
      s.out = [] ∧ s.err = [] ∧ s.exitStatus = none ∧ s.Inv) ∧
    (256 < image.length → launch image = .error .imageTooLong)

/-- 41_ldi_prn.md R86 (the line feed is the spec's decision D8, log entry 12): the output collaborator shows a byte as
its unsigned decimal numeral and one line feed. -/
def Obligations.PrintedTextIsTheDecimalNumeral : Prop :=
  ∀ v : Byte, outText v = Nat.toDigits 10 v.toNat ++ ['\n']
end

