-- ==== Sys2Proof/Laws/State.lean ====
section
/-! SUPPORT. What each update of the state does to each field, to a register and to a read of memory: one lemma per field
per update, each true by unfolding, so that no later proof unfolds a record update. -/

namespace Sys2Proof.Machine

variable (s : State)

@[simp] theorem State.setReg_mem (i : Fin 8) (v : Int) : (s.setReg i v).mem = s.mem := rfl
@[simp] theorem State.setReg_regs (i : Fin 8) (v : Int) : (s.setReg i v).regs = s.regs.set i (narrow v) := rfl
@[simp] theorem State.setReg_pc (i : Fin 8) (v : Int) : (s.setReg i v).pc = s.pc := rfl
@[simp] theorem State.setReg_runState (i : Fin 8) (v : Int) : (s.setReg i v).runState = s.runState := rfl
@[simp] theorem State.setReg_out (i : Fin 8) (v : Int) : (s.setReg i v).out = s.out := rfl
@[simp] theorem State.setReg_err (i : Fin 8) (v : Int) : (s.setReg i v).err = s.err := rfl
@[simp] theorem State.setReg_exitStatus (i : Fin 8) (v : Int) : (s.setReg i v).exitStatus = s.exitStatus := rfl
@[simp] theorem State.setReg_memRead (i : Fin 8) (v : Int) (a : Int) : (s.setReg i v).memRead a = s.memRead a := rfl

@[simp] theorem State.setSp_mem (v : Int) : (s.setSp v).mem = s.mem := rfl
@[simp] theorem State.setSp_regs (v : Int) : (s.setSp v).regs = s.regs.set Config.SP_INDEX (narrow v) := rfl
@[simp] theorem State.setSp_pc (v : Int) : (s.setSp v).pc = s.pc := rfl
@[simp] theorem State.setSp_runState (v : Int) : (s.setSp v).runState = s.runState := rfl
@[simp] theorem State.setSp_out (v : Int) : (s.setSp v).out = s.out := rfl
@[simp] theorem State.setSp_err (v : Int) : (s.setSp v).err = s.err := rfl
@[simp] theorem State.setSp_exitStatus (v : Int) : (s.setSp v).exitStatus = s.exitStatus := rfl
@[simp] theorem State.setSp_memRead (v : Int) (a : Int) : (s.setSp v).memRead a = s.memRead a := rfl

@[simp] theorem State.decSp_mem : (s.decSp).mem = s.mem := rfl
@[simp] theorem State.decSp_regs : (s.decSp).regs = s.regs.set Config.SP_INDEX (narrow (uval s.sp - 1)) := rfl
@[simp] theorem State.decSp_pc : (s.decSp).pc = s.pc := rfl
@[simp] theorem State.decSp_runState : (s.decSp).runState = s.runState := rfl
@[simp] theorem State.decSp_out : (s.decSp).out = s.out := rfl
@[simp] theorem State.decSp_err : (s.decSp).err = s.err := rfl
@[simp] theorem State.decSp_exitStatus : (s.decSp).exitStatus = s.exitStatus := rfl
@[simp] theorem State.decSp_memRead (a : Int) : (s.decSp).memRead a = s.memRead a := rfl

@[simp] theorem State.incSp_mem : (s.incSp).mem = s.mem := rfl
@[simp] theorem State.incSp_regs : (s.incSp).regs = s.regs.set Config.SP_INDEX (narrow (uval s.sp + 1)) := rfl
@[simp] theorem State.incSp_pc : (s.incSp).pc = s.pc := rfl
@[simp] theorem State.incSp_runState : (s.incSp).runState = s.runState := rfl
@[simp] theorem State.incSp_out : (s.incSp).out = s.out := rfl
@[simp] theorem State.incSp_err : (s.incSp).err = s.err := rfl
@[simp] theorem State.incSp_exitStatus : (s.incSp).exitStatus = s.exitStatus := rfl
@[simp] theorem State.incSp_memRead (a : Int) : (s.incSp).memRead a = s.memRead a := rfl

@[simp] theorem State.setPc_mem (t : Int) : (s.setPc t).mem = s.mem := rfl
@[simp] theorem State.setPc_regs (t : Int) : (s.setPc t).regs = s.regs := rfl
@[simp] theorem State.setPc_pc (t : Int) : (s.setPc t).pc = narrow t := rfl
@[simp] theorem State.setPc_runState (t : Int) : (s.setPc t).runState = s.runState := rfl
@[simp] theorem State.setPc_out (t : Int) : (s.setPc t).out = s.out := rfl
@[simp] theorem State.setPc_err (t : Int) : (s.setPc t).err = s.err := rfl
@[simp] theorem State.setPc_exitStatus (t : Int) : (s.setPc t).exitStatus = s.exitStatus := rfl
@[simp] theorem State.setPc_reg (t : Int) (i : Fin 8) : (s.setPc t).reg i = s.reg i := rfl
@[simp] theorem State.setPc_memRead (t : Int) (a : Int) : (s.setPc t).memRead a = s.memRead a := rfl

@[simp] theorem State.advancePc_mem (n : Nat) : (s.advancePc n).mem = s.mem := rfl
@[simp] theorem State.advancePc_regs (n : Nat) : (s.advancePc n).regs = s.regs := rfl
@[simp] theorem State.advancePc_pc (n : Nat) : (s.advancePc n).pc = narrow (uval s.pc + n) := rfl
@[simp] theorem State.advancePc_runState (n : Nat) : (s.advancePc n).runState = s.runState := rfl
@[simp] theorem State.advancePc_out (n : Nat) : (s.advancePc n).out = s.out := rfl
@[simp] theorem State.advancePc_err (n : Nat) : (s.advancePc n).err = s.err := rfl
@[simp] theorem State.advancePc_exitStatus (n : Nat) : (s.advancePc n).exitStatus = s.exitStatus := rfl
@[simp] theorem State.advancePc_reg (n : Nat) (i : Fin 8) : (s.advancePc n).reg i = s.reg i := rfl
@[simp] theorem State.advancePc_memRead (n : Nat) (a : Int) : (s.advancePc n).memRead a = s.memRead a := rfl

@[simp] theorem State.memWrite_mem (a v : Int) : (s.memWrite a v).mem = Memory.write s.mem (narrow a).toNat (narrow v) := rfl
@[simp] theorem State.memWrite_regs (a v : Int) : (s.memWrite a v).regs = s.regs := rfl
@[simp] theorem State.memWrite_pc (a v : Int) : (s.memWrite a v).pc = s.pc := rfl
@[simp] theorem State.memWrite_runState (a v : Int) : (s.memWrite a v).runState = s.runState := rfl
@[simp] theorem State.memWrite_out (a v : Int) : (s.memWrite a v).out = s.out := rfl
@[simp] theorem State.memWrite_err (a v : Int) : (s.memWrite a v).err = s.err := rfl
@[simp] theorem State.memWrite_exitStatus (a v : Int) : (s.memWrite a v).exitStatus = s.exitStatus := rfl
@[simp] theorem State.memWrite_reg (a v : Int) (i : Fin 8) : (s.memWrite a v).reg i = s.reg i := rfl

@[simp] theorem State.storeAtSp_mem (v : Int) : (s.storeAtSp v).mem = Memory.write s.mem (narrow (uval s.sp)).toNat (narrow v) := rfl
@[simp] theorem State.storeAtSp_regs (v : Int) : (s.storeAtSp v).regs = s.regs := rfl
@[simp] theorem State.storeAtSp_pc (v : Int) : (s.storeAtSp v).pc = s.pc := rfl
@[simp] theorem State.storeAtSp_runState (v : Int) : (s.storeAtSp v).runState = s.runState := rfl
@[simp] theorem State.storeAtSp_out (v : Int) : (s.storeAtSp v).out = s.out := rfl
@[simp] theorem State.storeAtSp_err (v : Int) : (s.storeAtSp v).err = s.err := rfl
@[simp] theorem State.storeAtSp_exitStatus (v : Int) : (s.storeAtSp v).exitStatus = s.exitStatus := rfl
@[simp] theorem State.storeAtSp_reg (v : Int) (i : Fin 8) : (s.storeAtSp v).reg i = s.reg i := rfl

@[simp] theorem State.emitOut_mem (v : Byte) : (s.emitOut v).mem = s.mem := rfl
@[simp] theorem State.emitOut_regs (v : Byte) : (s.emitOut v).regs = s.regs := rfl
@[simp] theorem State.emitOut_pc (v : Byte) : (s.emitOut v).pc = s.pc := rfl
@[simp] theorem State.emitOut_runState (v : Byte) : (s.emitOut v).runState = s.runState := rfl
@[simp] theorem State.emitOut_out (v : Byte) : (s.emitOut v).out = s.out ++ [v] := rfl
@[simp] theorem State.emitOut_err (v : Byte) : (s.emitOut v).err = s.err := rfl
@[simp] theorem State.emitOut_exitStatus (v : Byte) : (s.emitOut v).exitStatus = s.exitStatus := rfl
@[simp] theorem State.emitOut_reg (v : Byte) (i : Fin 8) : (s.emitOut v).reg i = s.reg i := rfl
@[simp] theorem State.emitOut_memRead (v : Byte) (a : Int) : (s.emitOut v).memRead a = s.memRead a := rfl

@[simp] theorem State.emitErr_mem (e : ErrRecord) : (s.emitErr e).mem = s.mem := rfl
@[simp] theorem State.emitErr_regs (e : ErrRecord) : (s.emitErr e).regs = s.regs := rfl
@[simp] theorem State.emitErr_pc (e : ErrRecord) : (s.emitErr e).pc = s.pc := rfl
@[simp] theorem State.emitErr_runState (e : ErrRecord) : (s.emitErr e).runState = s.runState := rfl
@[simp] theorem State.emitErr_out (e : ErrRecord) : (s.emitErr e).out = s.out := rfl
@[simp] theorem State.emitErr_err (e : ErrRecord) : (s.emitErr e).err = s.err ++ [e] := rfl
@[simp] theorem State.emitErr_exitStatus (e : ErrRecord) : (s.emitErr e).exitStatus = s.exitStatus := rfl
@[simp] theorem State.emitErr_reg (e : ErrRecord) (i : Fin 8) : (s.emitErr e).reg i = s.reg i := rfl
@[simp] theorem State.emitErr_memRead (e : ErrRecord) (a : Int) : (s.emitErr e).memRead a = s.memRead a := rfl

@[simp] theorem State.haltWith_mem (n : Nat) : (s.haltWith n).mem = s.mem := rfl
@[simp] theorem State.haltWith_regs (n : Nat) : (s.haltWith n).regs = s.regs := rfl
@[simp] theorem State.haltWith_pc (n : Nat) : (s.haltWith n).pc = s.pc := rfl
@[simp] theorem State.haltWith_runState (n : Nat) : (s.haltWith n).runState = .halted := rfl
@[simp] theorem State.haltWith_out (n : Nat) : (s.haltWith n).out = s.out := rfl
@[simp] theorem State.haltWith_err (n : Nat) : (s.haltWith n).err = s.err := rfl
@[simp] theorem State.haltWith_exitStatus (n : Nat) : (s.haltWith n).exitStatus = some n := rfl
@[simp] theorem State.haltWith_reg (n : Nat) (i : Fin 8) : (s.haltWith n).reg i = s.reg i := rfl
@[simp] theorem State.haltWith_memRead (n : Nat) (a : Int) : (s.haltWith n).memRead a = s.memRead a := rfl

@[simp] theorem State.halt_mem : (s.halt).mem = s.mem := rfl
@[simp] theorem State.halt_regs : (s.halt).regs = s.regs := rfl
@[simp] theorem State.halt_pc : (s.halt).pc = s.pc := rfl
@[simp] theorem State.halt_runState : (s.halt).runState = .halted := rfl
@[simp] theorem State.halt_out : (s.halt).out = s.out := rfl
@[simp] theorem State.halt_err : (s.halt).err = s.err := rfl
@[simp] theorem State.halt_exitStatus : (s.halt).exitStatus = some Config.EXIT_STATUS_HLT := rfl
@[simp] theorem State.halt_reg (i : Fin 8) : (s.halt).reg i = s.reg i := rfl
@[simp] theorem State.halt_memRead (a : Int) : (s.halt).memRead a = s.memRead a := rfl

@[simp] theorem State.raise_mem (e : ErrRecord) : (s.raise e).mem = s.mem := rfl
@[simp] theorem State.raise_regs (e : ErrRecord) : (s.raise e).regs = s.regs := rfl
@[simp] theorem State.raise_pc (e : ErrRecord) : (s.raise e).pc = s.pc := rfl
@[simp] theorem State.raise_runState (e : ErrRecord) : (s.raise e).runState = .halted := rfl
@[simp] theorem State.raise_out (e : ErrRecord) : (s.raise e).out = s.out := rfl
@[simp] theorem State.raise_err (e : ErrRecord) : (s.raise e).err = s.err ++ [e] := rfl
@[simp] theorem State.raise_exitStatus (e : ErrRecord) : (s.raise e).exitStatus = some Config.EXIT_STATUS_FAULT := rfl
@[simp] theorem State.raise_reg (e : ErrRecord) (i : Fin 8) : (s.raise e).reg i = s.reg i := rfl
@[simp] theorem State.raise_memRead (e : ErrRecord) (a : Int) : (s.raise e).memRead a = s.memRead a := rfl

/-- `SP` is a second name of `x[7]` (10_state.md R12): `reg 7` is the spelling every lemma uses. -/
@[simp] theorem State.sp_eq : s.sp = s.reg 7 := rfl
@[simp] theorem State.loadAtSp_eq : s.loadAtSp = s.memRead (uval (s.reg 7)) := rfl
@[simp] theorem sp_index_eq : Config.SP_INDEX = 7 := rfl
@[simp] theorem exit_status_hlt_eq : Config.EXIT_STATUS_HLT = 1 := rfl
@[simp] theorem exit_status_fault_eq : Config.EXIT_STATUS_FAULT = 1 := rfl

end Sys2Proof.Machine
end

