-- ==== Sys2Proof/Laws/Word.lean ====
section
/-! SUPPORT. The two readings of a byte undo each other modulo 256 (00_scope.md R6, R7). -/

namespace Sys2Proof

theorem uval_nonneg (b : Byte) : 0 ≤ uval b := Int.natCast_nonneg _

theorem uval_lt (b : Byte) : uval b < 256 := by
  have := b.isLt
  unfold uval
  omega

/-- A narrowed integer reads back as the integer modulo 256. -/
@[simp] theorem uval_narrow (v : Int) : uval (narrow v) = v % 256 := by
  have h := Int.emod_nonneg v (show (256 : Int) ≠ 0 by decide)
  simpa [uval, narrow, BitVec.toNat_ofInt] using h

@[simp] theorem narrow_uval (b : Byte) : narrow (uval b) = b := by
  simp [narrow, uval]

theorem uval_injective {b c : Byte} (h : uval b = uval c) : b = c := by
  rw [← narrow_uval b, h, narrow_uval]

/-- Two integers narrow to one byte exactly when they agree modulo 256. -/
theorem narrow_eq_iff (v w : Int) : narrow v = narrow w ↔ v % 256 = w % 256 := by
  constructor
  · intro h
    rw [← uval_narrow v, h, uval_narrow]
  · intro h
    apply uval_injective
    rw [uval_narrow, uval_narrow, h]

theorem narrow_toNat (v : Int) : ((narrow v).toNat : Int) = v % 256 := uval_narrow v

/-- Narrowing an argument that was already narrowed changes nothing. -/
@[simp] theorem narrow_emod (v : Int) : narrow (v % 256) = narrow v := by
  rw [narrow_eq_iff, Int.emod_emod_of_dvd _ (Int.dvd_refl 256)]

/-- Decrementing modulo 256 and then incrementing changes nothing (43_stack.md R103). -/
theorem narrow_dec_inc (x : Byte) : narrow (uval (narrow (uval x - 1)) + 1) = x := by
  conv_rhs => rw [← narrow_uval x]
  rw [narrow_eq_iff, uval_narrow]
  omega

/-- Adding a natural number modulo 256, as a natural number. -/
theorem narrow_add_toNat (x : Byte) (n : Nat) : (narrow (uval x + n)).toNat = (x.toNat + n) % 256 := by
  have := narrow_toNat (uval x + n)
  simp only [uval] at this ⊢
  omega

theorem narrow_toNat_lt (v : Int) : (narrow v).toNat < 256 := (narrow v).isLt

end Sys2Proof
end

