-- ==== Sys2Proof/Laws/Ops.lean ====
section
/-! SUPPORT. One lemma for each shared operation that says everything it can do. -/

namespace Sys2Proof.Machine

/-- A register write is read back narrowed, and no other register changes (10_state.md R11, R14). -/
theorem State.reg_setReg (s : State) (i j : Fin 8) (v : Int) :
    (s.setReg i v).reg j = if i = j then narrow v else s.reg j := by
  simp only [State.reg, State.setReg, Fin.getElem_fin, Vector.getElem_set, Fin.ext_iff]

@[simp] theorem State.reg_setReg_same (s : State) (i : Fin 8) (v : Int) : (s.setReg i v).reg i = narrow v := by
  simp [State.reg_setReg]

theorem State.reg_setReg_other (s : State) {i j : Fin 8} (h : i ≠ j) (v : Int) :
    (s.setReg i v).reg j = s.reg j := by
  simp [State.reg_setReg, h]

theorem State.reg_setSp (s : State) (j : Fin 8) (v : Int) :
    (s.setSp v).reg j = if 7 = j then narrow v else s.reg j := State.reg_setReg s 7 j v

theorem State.reg_decSp (s : State) (j : Fin 8) :
    s.decSp.reg j = if 7 = j then narrow (uval (s.reg 7) - 1) else s.reg j := State.reg_setReg s 7 j _

theorem State.reg_incSp (s : State) (j : Fin 8) :
    s.incSp.reg j = if 7 = j then narrow (uval (s.reg 7) + 1) else s.reg j := State.reg_setReg s 7 j _

/-- Two register files that agree register by register are one. -/
theorem State.regs_ext {s t : State} (h : ∀ i, s.reg i = t.reg i) : s.regs = t.regs := by
  apply Vector.ext
  intro k hk
  exact h ⟨k, hk⟩

/-- Reading the cell a write named, modulo 256, gives the value modulo 256; any other cell is as before
(20_memory.md R31). -/
theorem State.memRead_memWrite (s : State) (a v b : Int) :
    (s.memWrite a v).memRead b = if b % 256 = a % 256 then narrow v else s.memRead b := by
  simp only [State.memRead, State.memWrite]
  split
  · next h => rw [(narrow_eq_iff b a).mpr h, Memory.read_write_same]
  · next h =>
    apply Memory.read_write_other
    intro e
    exact h ((narrow_eq_iff b a).mp (BitVec.eq_of_toNat_eq e))

theorem State.memRead_storeAtSp (s : State) (v b : Int) :
    (s.storeAtSp v).memRead b = if b % 256 = uval (s.reg 7) % 256 then narrow v else s.memRead b :=
  State.memRead_memWrite s _ v b

/-- What was stored at SP is what SP loads (43_stack.md R100). -/
theorem State.loadAtSp_storeAtSp (s : State) (v : Int) : (s.storeAtSp v).loadAtSp = narrow v := by
  simp [State.memRead_storeAtSp]

/-- A store at SP leaves every other byte alone (20_memory.md R31). -/
theorem State.memRead_storeAtSp_other (s : State) (v : Int) {a : Byte} (h : a ≠ s.reg 7) :
    (s.storeAtSp v).memRead (uval a) = s.memRead (uval a) := by
  rw [State.memRead_storeAtSp, if_neg]
  intro e
  rw [← narrow_eq_iff, narrow_uval, narrow_uval] at e
  exact h e

/-- A read sees its address modulo 256 only (20_memory.md R32). -/
theorem State.memRead_congr (s : State) {a b : Int} (h : a % 256 = b % 256) : s.memRead a = s.memRead b := by
  rw [State.memRead, (narrow_eq_iff a b).mpr h, State.memRead]

/-- Every operation on the state keeps memory canonical; this is the one that writes it. -/
theorem State.memWrite_wf {s : State} (h : Memory.wf s.mem) (a v : Int) : Memory.wf (s.memWrite a v).mem :=
  Memory.write_wf h (narrow_toNat_lt a) _

theorem regOk_iff {v : Byte} : regOk v = true ↔ v.toNat < 8 := decide_eq_true_iff

theorem regIndex_eq_some {v : Byte} {r : Fin 8} : regIndex v = some r ↔ v.toNat = r.val := by
  unfold regIndex
  split
  · next h => simp [Fin.ext_iff]
  · next h =>
    have := r.isLt
    simp only [reduceCtorEq, false_iff]
    omega

theorem regIndex_eq_none {v : Byte} : regIndex v = none ↔ 8 ≤ v.toNat := by
  unfold regIndex
  split <;> simp <;> omega

/-- `requireReg` goes on with the register the byte names, or takes RegIndexFault (40_run_loop_and_hlt.md R74). -/
theorem requireReg_cases (ir v : Byte) (s : State) (k : Fin 8 → Result) :
    (∃ r : Fin 8, v.toNat = r.val ∧ requireReg ir v s k = k r) ∨
    (8 ≤ v.toNat ∧ requireReg ir v s k = .next (s.raise (.regIndex ir s.pc v))) := by
  unfold requireReg
  cases h : regIndex v with
  | some r => exact .inl ⟨r, regIndex_eq_some.mp h, rfl⟩
  | none => exact .inr ⟨regIndex_eq_none.mp h, rfl⟩

theorem requireReg_ok {ir v : Byte} {s : State} {k : Fin 8 → Result} (h : v.toNat < 8) :
    requireReg ir v s k = k ⟨v.toNat, h⟩ := by
  simp [requireReg, regIndex, h]

theorem requireReg_fault {ir v : Byte} {s : State} {k : Fin 8 → Result} (h : 8 ≤ v.toNat) :
    requireReg ir v s k = .next (s.raise (.regIndex ir s.pc v)) := by
  simp [requireReg, regIndex_eq_none.mpr h, raiseRegIndexFault]

/-- The result of an ALU operation as a number: the exact result modulo 256 (42_alu.md R91 to R93). -/
theorem uval_alu (op : AluOp) (va vb : Byte) : uval (alu op va vb) = aluExact op (uval va) (uval vb) % 256 :=
  uval_narrow _

/-- The ALU writes its first register alone, with a value both registers were read for first (42_alu.md R90). -/
theorem reg_aluApply (op : AluOp) (a b j : Fin 8) (s : State) :
    (aluApply op a b s).reg j = if a = j then alu op (s.reg a) (s.reg b) else s.reg j := by
  simp [aluApply, State.reg_setReg]

end Sys2Proof.Machine
end

