-- ==== Sys2Proof/Laws/Config.lean ====
section
/-! SUPPORT. The model has the sizes and follows the policies that Config records under the names of 00_scope.md R5. -/

namespace Sys2Proof.Machine

theorem byte_has_width_XLEN : Byte = BitVec Config.XLEN := rfl

/-- Every address that fits in ADDR_BITS bits is a cell, and there are no others. -/
theorem mem_size_of_addr_bits : 2 ^ Config.ADDR_BITS = Config.MEM_SIZE := by decide

theorem pc_has_width_PC_BITS (s : State) : s.pc.toNat < 2 ^ Config.PC_BITS := s.pc.isLt

theorem register_file_has_NREGS (s : State) : s.regs.toList.length = Config.NREGS := by simp [Config.NREGS]

/-- ADDR_POLICY is mask, and reads and writes do mask (20_memory.md R32). -/
theorem addr_policy_mask (s : State) (a v : Int) :
    Config.ADDR_POLICY = .mask ∧ s.memRead a = s.memRead (a % 256) ∧ s.memWrite a v = s.memWrite (a % 256) v := by
  refine ⟨rfl, State.memRead_congr s (by omega), ?_⟩
  simp only [State.memWrite, narrow_emod]

/-- REGIDX_POLICY is fault, and an index above 7 does fault (40_run_loop_and_hlt.md R74). -/
theorem regidx_policy_fault (ir v : Byte) (s : State) (k : Fin 8 → Result) (h : 8 ≤ v.toNat) :
    Config.REGIDX_POLICY = .fault ∧ requireReg ir v s k = .next (s.raise (.regIndex ir s.pc v)) :=
  ⟨rfl, requireReg_fault h⟩

end Sys2Proof.Machine
end

