-- ==== Sys2Proof/Laws/Decode.lean ====
section
/-! SUPPORT. Everything the decoder can answer, said once (30_encoding.md R53 to R55). -/

namespace Sys2Proof

/-- The instruction whose opcode byte is `ir`, or the rejection by name of a byte that is none of the nine. -/
theorem decodeFetched_cases (ir a b : Byte) :
    (ir = 0x01 ∧ decodeFetched ir a b = .ok .hlt) ∨
    (ir = 0x82 ∧ decodeFetched ir a b = .ok (.ldi a b)) ∨
    (ir = 0x47 ∧ decodeFetched ir a b = .ok (.prn a)) ∨
    (ir = 0xA0 ∧ decodeFetched ir a b = .ok (.add a b)) ∨
    (ir = 0xA2 ∧ decodeFetched ir a b = .ok (.mul a b)) ∨
    (ir = 0x45 ∧ decodeFetched ir a b = .ok (.push a)) ∨
    (ir = 0x46 ∧ decodeFetched ir a b = .ok (.pop a)) ∨
    (ir = 0x50 ∧ decodeFetched ir a b = .ok (.call a)) ∨
    (ir = 0x11 ∧ decodeFetched ir a b = .ok .ret) ∨
    (ir ∉ ([0x01, 0x82, 0x47, 0xA0, 0xA2, 0x45, 0x46, 0x50, 0x11] : List Byte) ∧
      decodeFetched ir a b = .error (.unknownOpcode ir)) := by
  by_cases h1 : ir = 1#8
  · exact .inl ⟨h1, by subst h1; rfl⟩
  by_cases h2 : ir = 130#8
  · exact .inr (.inl ⟨h2, by subst h2; rfl⟩)
  by_cases h3 : ir = 71#8
  · exact .inr (.inr (.inl ⟨h3, by subst h3; rfl⟩))
  by_cases h4 : ir = 160#8
  · exact .inr (.inr (.inr (.inl ⟨h4, by subst h4; rfl⟩)))
  by_cases h5 : ir = 162#8
  · exact .inr (.inr (.inr (.inr (.inl ⟨h5, by subst h5; rfl⟩))))
  by_cases h6 : ir = 69#8
  · exact .inr (.inr (.inr (.inr (.inr (.inl ⟨h6, by subst h6; rfl⟩)))))
  by_cases h7 : ir = 70#8
  · exact .inr (.inr (.inr (.inr (.inr (.inr (.inl ⟨h7, by subst h7; rfl⟩))))))
  by_cases h8 : ir = 80#8
  · exact .inr (.inr (.inr (.inr (.inr (.inr (.inr (.inl ⟨h8, by subst h8; rfl⟩)))))))
  by_cases h9 : ir = 17#8
  · exact .inr (.inr (.inr (.inr (.inr (.inr (.inr (.inr (.inl ⟨h9, by subst h9; rfl⟩))))))))
  refine .inr (.inr (.inr (.inr (.inr (.inr (.inr (.inr (.inr ⟨by simp [h1, h2, h3, h4, h5, h6, h7, h8, h9], ?_⟩))))))))
  have : instructionDecoder ir = none := by
    simp [instructionDecoder, dispatchTable, Ne.symm h1, Ne.symm h2, Ne.symm h3, Ne.symm h4, Ne.symm h5, Ne.symm h6,
      Ne.symm h7, Ne.symm h8, Ne.symm h9]
  simp [decodeFetched, this]

/-- An instruction that was decoded has the opcode byte it was decoded from. -/
theorem opcodeOf_of_decodeFetched {ir a b : Byte} {i : Instr} (h : decodeFetched ir a b = .ok i) : opcodeOf i = ir := by
  rcases decodeFetched_cases ir a b with h' | h' | h' | h' | h' | h' | h' | h' | h' | h' <;>
    rw [h'.2] at h <;> cases h <;> exact h'.1.symm

end Sys2Proof
end

