-- ==== Sys2Proof/Laws/Exec.lean ====
section
/-! SUPPORT. Everything an instruction and a step can do, said once: proofs about `exec` and `step` start here. -/

namespace Sys2Proof.Machine

/-- `t` is what the rule of `i` makes of `s` when every index check passes, as updates of the state. -/
def Effect : Instr → State → State → Prop
  | .hlt, s, t => t = s.halt
  | .ldi a b, s, t => ∃ r : Fin 8, a.toNat = r.val ∧ t = (s.setReg r (uval b)).advancePc 3
  | .prn a, s, t => ∃ r : Fin 8, a.toNat = r.val ∧ t = (s.emitOut (s.reg r)).advancePc 2
  | .add a b, s, t => ∃ ra rb : Fin 8, a.toNat = ra.val ∧ b.toNat = rb.val ∧ t = (aluApply .add ra rb s).advancePc 3
  | .mul a b, s, t => ∃ ra rb : Fin 8, a.toNat = ra.val ∧ b.toNat = rb.val ∧ t = (aluApply .mul ra rb s).advancePc 3
  | .push a, s, t => ∃ r : Fin 8, a.toNat = r.val ∧ t = (s.decSp.storeAtSp (uval (s.decSp.reg r))).advancePc 2
  | .pop a, s, t => ∃ r : Fin 8, a.toNat = r.val ∧ t = (s.setReg r (uval s.loadAtSp)).incSp.advancePc 2
  | .call a, s, t => ∃ r : Fin 8, a.toNat = r.val ∧
      t = (s.decSp.storeAtSp (uval s.pc + 2)).setPc (uval (s.decSp.reg r))
  | .ret, s, t => t = (s.setPc (uval s.loadAtSp)).incSp

/-- An instruction has one next state: its effect, or RegIndexFault for an operand above 7. -/
theorem exec_cases (i : Instr) (s : State) :
    (∃ t, exec i s = .next t ∧ i.wellFormed = true ∧ Effect i s t) ∨
    (∃ v ∈ i.regOperands, 8 ≤ v.toNat ∧ exec i s = .next (s.raise (.regIndex (opcodeOf i) s.pc v))) := by
  have one : ∀ {ir a : Byte} {k : Fin 8 → Result} (f : Fin 8 → State), (∀ r, k r = .next (f r)) →
      (∃ t, requireReg ir a s k = .next t ∧ [a].all regOk = true ∧ ∃ r : Fin 8, a.toNat = r.val ∧ t = f r) ∨
      (∃ v ∈ [a], 8 ≤ v.toNat ∧ requireReg ir a s k = .next (s.raise (.regIndex ir s.pc v))) := by
    intro ir a k f hk
    rcases requireReg_cases ir a s k with ⟨r, hr, h⟩ | ⟨ha, h⟩
    · refine .inl ⟨f r, by rw [h, hk], ?_, r, hr, rfl⟩
      have := r.isLt
      simp only [List.all_cons, List.all_nil, Bool.and_true, regOk_iff]
      omega
    · exact .inr ⟨a, by simp, ha, h⟩
  have two : ∀ {ir a b : Byte} {k : Fin 8 → Fin 8 → Result} (f : Fin 8 → Fin 8 → State),
      (∀ ra rb, k ra rb = .next (f ra rb)) →
      (∃ t, (requireReg ir a s fun ra => requireReg ir b s (k ra)) = .next t ∧ [a, b].all regOk = true ∧
        ∃ ra rb : Fin 8, a.toNat = ra.val ∧ b.toNat = rb.val ∧ t = f ra rb) ∨
      (∃ v ∈ [a, b], 8 ≤ v.toNat ∧
        (requireReg ir a s fun ra => requireReg ir b s (k ra)) = .next (s.raise (.regIndex ir s.pc v))) := by
    intro ir a b k f hk
    rcases requireReg_cases ir a s (fun ra => requireReg ir b s (k ra)) with ⟨ra, hra, h⟩ | ⟨ha, h⟩
    · rcases requireReg_cases ir b s (k ra) with ⟨rb, hrb, h'⟩ | ⟨hb, h'⟩
      · refine .inl ⟨f ra rb, by rw [h, h', hk], ?_, ra, rb, hra, hrb, rfl⟩
        have := ra.isLt
        have := rb.isLt
        simp only [List.all_cons, List.all_nil, Bool.and_true, Bool.and_eq_true, regOk_iff]
        omega
      · exact .inr ⟨b, by simp, hb, by rw [h, h']⟩
    · exact .inr ⟨a, by simp, ha, h⟩
  cases i with
  | hlt => exact .inl ⟨_, rfl, rfl, rfl⟩
  | ret => exact .inl ⟨_, rfl, rfl, rfl⟩
  | ldi a b => exact one (fun r => (s.setReg r (uval b)).advancePc 3) (fun _ => rfl)
  | prn a => exact one (fun r => (s.emitOut (s.reg r)).advancePc 2) (fun _ => rfl)
  | add a b => exact two (fun ra rb => (aluApply .add ra rb s).advancePc 3) (fun _ _ => rfl)
  | mul a b => exact two (fun ra rb => (aluApply .mul ra rb s).advancePc 3) (fun _ _ => rfl)
  | push a => exact one (fun r => (s.decSp.storeAtSp (uval (s.decSp.reg r))).advancePc 2) (fun _ => rfl)
  | pop a => exact one (fun r => (s.setReg r (uval s.loadAtSp)).incSp.advancePc 2) (fun _ => rfl)
  | call a => exact one (fun r => (s.decSp.storeAtSp (uval s.pc + 2)).setPc (uval (s.decSp.reg r))) (fun _ => rfl)

/-- What a next state of an instruction is. -/
theorem exec_next_inv {i : Instr} {s t : State} (h : exec i s = .next t) :
    (i.wellFormed = true ∧ Effect i s t) ∨
    (i.wellFormed = false ∧ ∃ v ∈ i.regOperands, t = s.raise (.regIndex (opcodeOf i) s.pc v)) := by
  rcases exec_cases i s with ⟨t', h', hw, he⟩ | ⟨v, hv, h8, h'⟩
  · rw [h] at h'
    cases h'
    exact .inl ⟨hw, he⟩
  · rw [h] at h'
    cases h'
    refine .inr ⟨?_, v, hv, rfl⟩
    rw [Instr.wellFormed, List.all_eq_false]
    refine ⟨v, hv, ?_⟩
    rw [regOk_iff]
    omega

/-- What a next state of a step is, and that only RUNNING has one. -/
theorem step_next_inv {s t : State} (h : step s = .next t) :
    s.runState = .running ∧
    ((∃ i, decodeAt s = .ok i ∧ exec i s = .next t) ∨
     (∃ e, decodeAt s = .error e ∧ t = s.raise (.unknownOpcode (fetch s).ir s.pc))) := by
  unfold step at h
  cases hr : s.runState with
  | halted => simp [hr, stepHalted] at h
  | running =>
    simp only [hr] at h
    refine ⟨rfl, ?_⟩
    cases hd : decodeAt s with
    | ok i => exact .inl ⟨i, rfl, by simpa [hd] using h⟩
    | error e =>
      refine .inr ⟨e, rfl, ?_⟩
      simp only [hd, stepUndecoded, raiseUnknownOpcode] at h
      cases h
      rfl

/-- What every step keeps holds of every state a run reaches. -/
theorem reaches_keeps {P : State → Prop} (hstep : ∀ s t, P s → step s = .next t → P t) {s t : State}
    (h : Reaches s t) (hs : P s) : P t := by
  induction h with
  | refl => exact hs
  | more _ htu ih => exact hstep _ _ ih htu

/-- An index operand in range lets the instruction go on to its effect. -/
theorem requireReg_of_eq {ir v : Byte} {s : State} {k : Fin 8 → Result} {r : Fin 8} (h : v.toNat = r.val) :
    requireReg ir v s k = k r := by
  simp [requireReg, regIndex_eq_some.mpr h]

end Sys2Proof.Machine
end

