-- ==== Sys2Proof/Laws/HostSide.lean ====
section
/-! SUPPORT. What the loader's writes leave in memory, and that they touch nothing else (70_reset_and_hazards.md R142). -/

namespace Sys2Proof.Machine

/-- After bytes are written from `a` on, within memory, those cells hold them and every other cell is as before. -/
theorem memRead_writeFrom (image : List Byte) (s : State) (a n : Nat) (h : a + image.length ≤ 256) (hn : n < 256) :
    (writeFrom s a image).memRead n =
      if a ≤ n ∧ n < a + image.length then image.getD (n - a) 0 else s.memRead n := by
  induction image generalizing s a with
  | nil => rw [if_neg (by simp)]; rfl
  | cons b image ih =>
    rw [List.length_cons] at h ⊢
    rw [writeFrom, ih _ _ (by omega), State.memRead_memWrite]
    by_cases h1 : a + 1 ≤ n ∧ n < a + 1 + image.length
    · rw [if_pos h1, if_pos (by omega), show n - a = n - (a + 1) + 1 by omega]
      rfl
    · rw [if_neg h1]
      by_cases h2 : n = a
      · subst h2
        rw [if_pos rfl, if_pos (by omega)]
        simp
      · rw [if_neg (by omega), if_neg (by omega)]

/-- Writing bytes changes memory alone. -/
theorem writeFrom_changes_memory_only (image : List Byte) (s : State) (a : Nat) :
    ∃ m, writeFrom s a image = { s with mem := m } := by
  induction image generalizing s a with
  | nil => exact ⟨s.mem, rfl⟩
  | cons b image ih =>
    obtain ⟨m, hm⟩ := ih (s.memWrite a (uval b)) (a + 1)
    exact ⟨m, hm⟩

/-- Writing bytes keeps memory canonical. -/
theorem writeFrom_wf (image : List Byte) {s : State} (a : Nat) (h : Memory.wf s.mem) :
    Memory.wf (writeFrom s a image).mem := by
  induction image generalizing s a with
  | nil => exact h
  | cons b image ih => exact ih (a + 1) (State.memWrite_wf h _ _)

end Sys2Proof.Machine
end

