-- ==== Sys2Proof/Laws/PerInstr.lean ====
section
/-! SUPPORT. Facts about every instruction as syntax, one lemma per constructor: its bytes are those its row of the
dispatch table calls for (30_encoding.md R50, R53). -/

namespace Sys2Proof.Laws.EncodingShape

/-- The opcode byte selects a row whose opcode it is, the row makes this instruction of the operand bytes, and the
encoding has the row's length. -/
def Statement (i : Instr) : Prop :=
  ∃ row, instructionDecoder (opcodeOf i) = some row ∧ row.opcode = opcodeOf i ∧
    (encode i).length = row.length ∧ (operandsOf i).length = row.operands ∧
    assemble row.mnemonic ((operandsOf i).getD 0 0) ((operandsOf i).getD 1 0) = i

theorem hlt : Statement .hlt := ⟨_, rfl, rfl, rfl, rfl, rfl⟩
theorem ldi (a b : Byte) : Statement (.ldi a b) := ⟨_, rfl, rfl, rfl, rfl, rfl⟩
theorem prn (a : Byte) : Statement (.prn a) := ⟨_, rfl, rfl, rfl, rfl, rfl⟩
theorem add (a b : Byte) : Statement (.add a b) := ⟨_, rfl, rfl, rfl, rfl, rfl⟩
theorem mul (a b : Byte) : Statement (.mul a b) := ⟨_, rfl, rfl, rfl, rfl, rfl⟩
theorem push (a : Byte) : Statement (.push a) := ⟨_, rfl, rfl, rfl, rfl, rfl⟩
theorem pop (a : Byte) : Statement (.pop a) := ⟨_, rfl, rfl, rfl, rfl, rfl⟩
theorem call (a : Byte) : Statement (.call a) := ⟨_, rfl, rfl, rfl, rfl, rfl⟩
theorem ret : Statement .ret := ⟨_, rfl, rfl, rfl, rfl, rfl⟩

end Sys2Proof.Laws.EncodingShape
end

