-- ==== Sys2Proof/Tests/Slice0.lean ====
section
/-! SUPPORT. Tests of the model. Expected results are those of spec/95_test_vectors.md (V<n>, S<n>) or are written out
from the rule named. Witnesses show that the hypotheses of each statement can be met. -/

namespace Sys2Proof.Tests

open Sys2Proof Sys2Proof.Machine

/-- The launch state with bytes at address 0. -/
def at0 (bytes : List Byte) : State := writeFrom State.reset 0 bytes

/-- The reset state with `pc` moved and bytes stored from it on. -/
def atPc (pc : Byte) (bytes : List Byte) : State := writeFrom { State.reset with pc := pc } pc.toNat bytes

/-- One field of the state after one step. -/
def after {α : Type} (s : State) (f : State → α) : Option α := (nextOf (step s)).map f

/-! ## Well-formedness refuses each bad operand (30_encoding.md R52) -/

theorem test_wf_ldi : (Instr.ldi 8 0).wellFormed = false ∧ (Instr.ldi 7 0xFF).wellFormed = true := by decide
theorem test_wf_prn : (Instr.prn 9).wellFormed = false ∧ (Instr.prn 7).wellFormed = true := by decide
theorem test_wf_add_first : (Instr.add 8 0).wellFormed = false := by decide
theorem test_wf_add_second : (Instr.add 0 8).wellFormed = false ∧ (Instr.add 7 7).wellFormed = true := by decide
theorem test_wf_mul_first : (Instr.mul 255 0).wellFormed = false := by decide
theorem test_wf_mul_second : (Instr.mul 0 0xC8).wellFormed = false ∧ (Instr.mul 7 7).wellFormed = true := by decide
theorem test_wf_push : (Instr.push 8).wellFormed = false ∧ (Instr.push 7).wellFormed = true := by decide
theorem test_wf_pop : (Instr.pop 0xFF).wellFormed = false ∧ (Instr.pop 7).wellFormed = true := by decide
theorem test_wf_call : (Instr.call 8).wellFormed = false ∧ (Instr.call 7).wellFormed = true := by decide

/-! ## Decoding, from the binary column of 30_encoding.md R53 -/

theorem test_decode_hlt : decode [0b00000001] = .ok (.hlt, []) := by decide
theorem test_decode_ldi : decode [0b10000010, 3, 0x77, 0x01] = .ok (.ldi 3 0x77, [0x01]) := by decide
theorem test_decode_prn : decode [0b01000111, 1] = .ok (.prn 1, []) := by decide
theorem test_decode_add : decode [0b10100000, 0, 7] = .ok (.add 0 7, []) := by decide
theorem test_decode_mul : decode [0b10100010, 2, 5] = .ok (.mul 2 5, []) := by decide
theorem test_decode_push : decode [0b01000101, 3] = .ok (.push 3, []) := by decide
theorem test_decode_pop : decode [0b01000110, 2] = .ok (.pop 2, []) := by decide
theorem test_decode_call : decode [0b01010000, 1] = .ok (.call 1, []) := by decide
theorem test_decode_ret : decode [0b00010001, 9] = .ok (.ret, [9]) := by decide
/-- `0x00` is no NOP and `0xA1` no SUB (R55, 42_alu.md R98). -/
theorem test_decode_rejects_by_name :
    decode [0x00] = .error (.unknownOpcode 0x00) ∧ decode [0xA1, 0, 1] = .error (.unknownOpcode 0xA1) ∧
    decode [0x82, 0] = .error .truncated := by decide
/-- V4: bytes one bit away from a valid opcode are unknown. -/
theorem test_decode_one_bit_neighbours :
    ∀ b ∈ ([0x00, 0x03, 0x05, 0x09, 0x21, 0x41, 0x81, 0x10, 0x13, 0x15, 0x19, 0x31, 0x51, 0x91, 0x44, 0x4D, 0x55, 0x65,
      0xC5, 0x42, 0x4E, 0x56, 0x66, 0x06, 0xC6, 0x43, 0x4F, 0x57, 0x67, 0x07, 0xC7, 0x52, 0x54, 0x58, 0x40, 0x70, 0xD0,
      0x83, 0x80, 0x86, 0x8A, 0x92, 0xC2, 0x02, 0xA1, 0xA4, 0xA8, 0xB0, 0xE0, 0x20, 0xA3, 0xA6, 0xAA, 0xB2, 0xE2,
      0x22] : List Byte), instructionDecoder b = none := by decide
/-- The pattern that R58 observes in the nine opcode values. -/
theorem test_opcode_pattern :
    ∀ r ∈ dispatchTable, r.opcode.toNat / 64 = r.operands ∧
      (r.opcode.getLsbD 5 = true ↔ r.mnemonic = .ADD ∨ r.mnemonic = .MUL) ∧
      (r.opcode.getLsbD 4 = true ↔ r.mnemonic = .CALL ∨ r.mnemonic = .RET) := by decide
/-- A table word of fewer bits than the instruction has operand bytes of zero. -/
theorem test_table_word_short : decodeTableWord 8 0x82 = some (.ldi 0 0) ∧ decodeTableWord 8 0x00 = none := by decide
theorem test_with_fetch_word : decodeAt (State.reset.withFetchWord 24 0x0801A0) = .ok (.add 1 8) := by rfl

/-! ## One step of each instruction -/

/-- V5, V6. -/
theorem test_hlt : after (atPc 0xFF [0x01]) (fun t => (t.runState, t.exitStatus, t.err, t.pc)) =
    some (.halted, some 1, [], 0xFF) := by decide
/-- V10. -/
theorem test_ldi : after (at0 [0x82, 0x00, 0x08]) (fun t => (t.reg 0, t.pc)) = some (0x08, 0x03) := by decide
/-- V14. -/
theorem test_ldi_wraps : after (atPc 0xFF [0x82, 0x02, 0x99]) (fun t => (t.reg 2, t.pc)) = some (0x99, 0x02) := by
  decide
/-- V17. -/
theorem test_prn_sp : after (at0 [0x47, 0x07]) (fun t => (t.out, t.pc)) = some ([244], 0x02) := by decide
/-- V18. -/
theorem test_prn_fault : after (at0 [0x47, 0x09]) (fun t => (t.err, t.out, t.pc, t.runState)) =
    some ([.regIndex 0x47 0x00 0x09], [], 0x00, .halted) := by decide
/-- V20. -/
theorem test_add : after (((at0 [0xA0, 0x00, 0x01]).setReg 0 0xFA).setReg 1 0x0A)
    (fun t => (t.reg 0, t.reg 1, t.pc)) = some (0x04, 0x0A, 0x03) := by decide
/-- V27: the first operand is reported. -/
theorem test_add_fault_order : after (at0 [0xA0, 0x09, 0x0A]) (fun t => t.err) =
    some [.regIndex 0xA0 0x00 0x09] := by decide
/-- V30. -/
theorem test_mul : after (((at0 [0xA2, 0x00, 0x01]).setReg 0 0xFF).setReg 1 0xFF)
    (fun t => (t.reg 0, t.reg 1)) = some (0x01, 0xFF) := by decide
/-- V32c. -/
theorem test_mul_fault : after ((at0 [0xA2, 0x00, 0xC8]).setReg 0 3) (fun t => (t.err, t.reg 0)) =
    some ([.regIndex 0xA2 0x00 0xC8], 0x03) := by decide
/-- V33b, V33f. -/
theorem test_alu_sub : alu .sub 4 10 = 250 ∧ alu .sub 128 129 = 255 := by decide
/-- V35: the decremented value is pushed. -/
theorem test_push_sp : after (at0 [0x45, 0x07]) (fun t => (t.reg 7, t.memRead 0xF3, t.pc)) =
    some (0xF3, 0xF3, 0x02) := by decide
/-- V36: the stack pointer wraps. -/
theorem test_push_wraps : after (((at0 [0x45, 0x01]).setReg 1 0xAB).setReg 7 0)
    (fun t => (t.reg 7, t.memRead 0xFF)) = some (0xFF, 0xAB) := by decide
/-- V38: the loaded value is incremented. -/
theorem test_pop_sp : after (((at0 [0x46, 0x07]).setReg 7 0xF0).memWrite 0xF0 0x20)
    (fun t => (t.reg 7, t.pc)) = some (0x21, 0x02) := by decide
/-- V39. -/
theorem test_pop_wraps : after (((at0 [0x46, 0x03]).setReg 7 0xFF).memWrite 0xFF 0x5A)
    (fun t => (t.reg 3, t.reg 7)) = some (0x5A, 0x00) := by decide
/-- V43: the target is the decremented stack pointer. -/
theorem test_call_sp : after (atPc 0x10 [0x50, 0x07]) (fun t => (t.reg 7, t.memRead 0xF3, t.pc)) =
    some (0xF3, 0x12, 0xF3) := by decide
/-- V46: the return address wraps. -/
theorem test_call_wraps : after ((atPc 0xFF [0x50, 0x02]).setReg 2 0x40) (fun t => (t.memRead 0xF3, t.pc)) =
    some (0x01, 0x40) := by decide
/-- V45. -/
theorem test_ret : after (((atPc 0x0E [0x11]).setReg 7 0xF3).memWrite 0xF3 0x08)
    (fun t => (t.pc, t.reg 7, t.memRead 0xF3)) = some (0x08, 0xF4, 0x08) := by decide
/-- V48. -/
theorem test_ret_wraps : after (((at0 [0x11]).setReg 7 0xFF).memWrite 0xFF 0x33) (fun t => (t.pc, t.reg 7)) =
    some (0x33, 0x00) := by decide
/-- V1: an empty image faults at once. -/
theorem test_unknown_opcode : after State.reset (fun t => (t.err, t.runState, t.exitStatus, t.pc)) =
    some ([.unknownOpcode 0x00 0x00], .halted, some 1, 0x00) := by decide

/-! ## The host's side -/

/-- The image file lines of 30_encoding.md R60: comments and blank lines take no address. -/
theorem test_parse_image : (match parseImage "10000010 # LDI R0 8\n\n# a comment\n00000000\n  00001000\n".toList with
    | .ok bs => bs
    | .error _ => []) = [0x82, 0x00, 0x08] := by decide
theorem test_parse_refuses : (match parseImage "1000001\n".toList with
    | .ok _ => false
    | .error _ => true) = true := by decide
/-- S6's output, 17, as the document shows it. -/
theorem test_out_text : outText 17 = ['1', '7', '\n'] ∧ outText 0 = ['0', '\n'] ∧ outText 255 = ['2', '5', '5', '\n'] := by
  decide

/-! ## Witnesses: the hypotheses of each statement can be met -/

theorem witness_general_register : (6 : Fin 8) ≠ 7 := by decide
theorem witness_other_register : (0 : Fin 8) ≠ 7 := by decide
theorem witness_memory_write : ((256 : Int) % 256 = 0 % 256) ∧ ((255 : Int) % 256 ≠ 256 % 256) := by decide
theorem witness_canonical_memories : Memory.wf [(3, 7)] ∧ (∀ a < 256, Memory.read [(3, 7)] a = Memory.read [(3, 7)] a) :=
  ⟨by decide, fun _ _ => rfl⟩
theorem witness_decoded_three_bytes : decodeFetched 0x82 0x07 0xFF = .ok (.ldi 7 0xFF) := by decide
theorem witness_unused_both : decodeFetched 0x01 0xFF 0xFF = .ok .hlt ∧ (operandsOf .hlt).length = 0 := by decide
theorem witness_unused_second : decodeFetched 0x47 0x07 0xFF = .ok (.prn 7) ∧ (operandsOf (.prn 7)).length = 1 := by
  decide
theorem witness_step_runs : (atPc 0xFE [0x82, 3, 0x77]).runState = .running ∧
    decodeAt (atPc 0xFE [0x82, 3, 0x77]) = .ok (.ldi 3 0x77) := by decide
theorem witness_unknown_opcode : State.reset.runState = .running ∧ State.reset.memRead (uval State.reset.pc) ∉
    ([0x01, 0x82, 0x47, 0xA0, 0xA2, 0x45, 0x46, 0x50, 0x11] : List Byte) := by decide
theorem witness_reg_index_first :
    (Instr.ldi 8 0).regOperands.find? (fun o => decide (8 ≤ o.toNat)) = some 8 := by decide
theorem witness_reg_index_second :
    (Instr.add 7 255).regOperands.find? (fun o => decide (8 ≤ o.toNat)) = some 255 := by decide
theorem witness_halted : State.reset.halt.runState = .halted := by decide
theorem witness_running : State.reset.runState = .running := by decide
/-- The two sides of the index check meet at 7 and 8; both operands, one operand. -/
theorem witness_index_in_range : (7 : Byte).toNat = (7 : Fin 8).val ∧ (6 : Byte).toNat = (6 : Fin 8).val := by decide
theorem witness_index_out_of_range : 7 < (8 : Byte).toNat := by decide
theorem witness_second_index_out_of_range : (7 : Byte).toNat ≤ 7 ∧ 7 < (8 : Byte).toNat := by decide
theorem witness_sp_operand : (7 : Byte).toNat = (7 : Fin 8).val ∧ (7 : Fin 8) = 7 := by decide
theorem witness_frame_ldi : ∃ t, exec (.ldi 7 1) State.reset = .next t ∧ (Instr.ldi 7 1).wellFormed = true :=
  ⟨_, rfl, by decide⟩
theorem witness_frame_add : ∃ t, exec (.add 0 7) State.reset = .next t ∧ (Instr.add 0 7).wellFormed = true :=
  ⟨_, rfl, by decide⟩
theorem witness_frame_mul : ∃ t, exec (.mul 8 7) State.reset = .next t := ⟨_, rfl⟩
theorem witness_frame_hlt : ∃ t, exec .hlt State.reset = .next t := ⟨_, rfl⟩
theorem witness_frame_prn : ∃ t, exec (.prn 7) State.reset = .next t ∧ (Instr.prn 7).wellFormed = true :=
  ⟨_, rfl, by decide⟩
theorem witness_frame_push : ∃ t, exec (.push 7) State.reset = .next t ∧ (Instr.push 7).wellFormed = true :=
  ⟨_, rfl, by decide⟩
theorem witness_frame_call : ∃ t, exec (.call 0) State.reset = .next t ∧ (Instr.call 0).wellFormed = true :=
  ⟨_, rfl, by decide⟩
theorem witness_frame_pop : ∃ t, exec (.pop 3) State.reset = .next t ∧ (2 : Fin 8) ≠ 7 ∧
    ¬ (Instr.pop 3 = .pop 3 ∧ (2 : Fin 8).val = (3 : Byte).toNat) := ⟨_, rfl, by decide, by decide⟩
theorem witness_frame_ret : ∃ t, exec .ret State.reset = .next t ∧ (2 : Fin 8) ≠ 7 := ⟨_, rfl, by decide⟩
/-- PUSH at `0xF1` with SP `0xF4` stores the byte the next fetch reads. -/
theorem witness_push_then_fetch_same : ∃ t, exec (.push 0) (atPc 0xF1 [0x45, 0x00]) = .next t ∧ t.pc = t.reg 7 :=
  ⟨_, rfl, by decide⟩
theorem witness_push_then_fetch_other : ∃ t, exec (.push 0) State.reset = .next t ∧ t.pc ≠ t.reg 7 :=
  ⟨_, rfl, by decide⟩
theorem witness_pc_ill_formed : ∃ t, exec (.call 8) State.reset = .next t ∧ (Instr.call 8).wellFormed = false :=
  ⟨_, rfl, by decide⟩
theorem witness_memory_changes : ∃ t, step (((at0 [0x45, 0x01]).setReg 1 0xAB).setReg 7 0) = .next t ∧
    t.memRead 0xFF ≠ (((at0 [0x45, 0x01]).setReg 1 0xAB).setReg 7 0).memRead 0xFF := ⟨_, rfl, by decide⟩
theorem witness_sp_changes : ∃ t, step (at0 [0x11]) = .next t ∧ t.reg 7 ≠ (at0 [0x11]).reg 7 := ⟨_, rfl, by decide⟩
theorem witness_named_register_changes : ∃ t, step (at0 [0x82, 0x06, 0x08]) = .next t ∧
    t.reg 6 ≠ (at0 [0x82, 0x06, 0x08]).reg 6 := ⟨_, rfl, by decide⟩
theorem witness_step_halts : ∃ t, step (at0 [0x01]) = .next t ∧ (at0 [0x01]).err = [] ∧ t.runState = .halted :=
  ⟨_, rfl, by decide, by decide⟩
theorem witness_step_faults : ∃ t, step (at0 [0x45, 0x08]) = .next t ∧ t.err ≠ (at0 [0x45, 0x08]).err ∧
    t.runState = .halted := ⟨_, rfl, by decide, by decide⟩
theorem witness_invariant : (at0 [0x50, 0x00]).Inv ∧ ∃ t, step (at0 [0x50, 0x00]) = .next t := ⟨by decide, _, rfl⟩
theorem witness_observables_running : SameArchitecture (at0 [0x47, 0x07]) ((at0 [0x47, 0x07]).emitOut 9) ∧
    ∃ t, step (at0 [0x47, 0x07]) = .next t := ⟨⟨rfl, rfl, rfl, rfl⟩, _, rfl⟩
theorem witness_observables_halted : SameArchitecture State.reset.halt (State.reset.halt.emitOut 9) ∧
    step State.reset.halt = .fault .halted := ⟨⟨rfl, rfl, rfl, rfl⟩, rfl⟩
theorem witness_unnamed_register : (6 : Fin 8) ≠ 7 ∧ ∀ o ∈ (Instr.add 0 5).regOperands, o.toNat ≠ (6 : Fin 8).val := by
  decide
theorem witness_image_fits : (List.replicate 256 (0 : Byte)).length ≤ 256 := by rw [List.length_replicate]
theorem witness_image_too_long : 256 < (List.replicate 257 (0 : Byte)).length := by
  rw [List.length_replicate]
  decide

end Sys2Proof.Tests
end

section
/-! PROOFS. 10_state.md: the statements about registers. -/

namespace Sys2Proof.Proofs

open Sys2Proof.Machine

/-- Settles O3, from the laws of a register read after a write to the same and to another register: the written
register holds the narrowed value, which as a number is the integer modulo 256. -/
theorem registerWriteMasksAndReadsBack : Obligations.RegisterWriteMasksAndReadsBack := by
  intro s i v
  refine ⟨?_, ?_, State.setReg_mem s i v, State.setReg_pc s i v⟩
  · rw [State.reg_setReg_same, narrow_toNat]
  · exact fun j hj => State.reg_setReg_other s hj.symm v

end Sys2Proof.Proofs
end

section
/-! PROOFS. 20_memory.md: the statement about `MemWrite`. -/

namespace Sys2Proof.Proofs

open Sys2Proof.Machine

/-- Settles O4, from the law of a memory read after a write: the written cell holds the narrowed value, every other
cell its old one, and an address counts modulo 256 only. -/
theorem memoryWriteChangesOneCell : Obligations.MemoryWriteChangesOneCell := by
  intro s addr v b
  refine ⟨fun same => ?_, fun other => ?_, State.memRead_congr s (Int.emod_emod addr 256).symm⟩
  · rw [State.memRead_memWrite, if_pos same, narrow_toNat]
  · rw [State.memRead_memWrite, if_neg other]

end Sys2Proof.Proofs
end

section
/-! PROOFS. 30_encoding.md: the statement about the instruction decoder. -/

namespace Sys2Proof.Proofs

/-- R54: an opcode byte names at most one row. -/
theorem dispatchTable_opcodes_nodup : (dispatchTable.map Row.opcode).Nodup := by decide

/-- R54: what the decoder answers is a row of the table with the whole byte as its opcode. -/
theorem mem_and_opcode_of_instructionDecoder {ir : Byte} {row : Row} (found : instructionDecoder ir = some row) :
    row ∈ dispatchTable ∧ row.opcode = ir := by
  unfold instructionDecoder at found
  exact ⟨List.mem_of_find?_eq_some found, by simpa using List.find?_some found⟩

/-- Some row is found when one has the byte as its opcode, and it is that row, since no other has the same opcode. -/
theorem instructionDecoder_eq_some_iff (ir : Byte) (row : Row) :
    instructionDecoder ir = some row ↔ row ∈ dispatchTable ∧ row.opcode = ir := by
  refine ⟨mem_and_opcode_of_instructionDecoder, ?_⟩
  rintro ⟨listed, rfl⟩
  cases found : instructionDecoder row.opcode with
  | none => exact absurd BEq.rfl (List.find?_eq_none.mp found row listed)
  | some first =>
    obtain ⟨firstListed, same⟩ := mem_and_opcode_of_instructionDecoder found
    rw [List.inj_on_of_nodup_map dispatchTable_opcodes_nodup firstListed listed same]

/-- R54: a byte is known exactly when it is an opcode of the table. -/
theorem instructionDecoder_isSome_iff (ir : Byte) :
    (instructionDecoder ir).isSome = true ↔ ir ∈ dispatchTable.map Row.opcode := by
  simp only [Option.isSome_iff_exists, instructionDecoder_eq_some_iff, List.mem_map]

/-- The numbers below 256 whose byte is unknown: those that are the value of no opcode in the table. -/
theorem unknownOpcodes_eq_sdiff :
    (Finset.range 256).filter (fun n => (instructionDecoder (BitVec.ofNat 8 n)).isNone) =
      Finset.range 256 \ (dispatchTable.map (fun row => row.opcode.toNat)).toFinset := by
  rw [← Finset.filter_notMem_eq_sdiff]
  refine Finset.filter_congr fun n below => ?_
  have value (b : Byte) : b = BitVec.ofNat 8 n ↔ b.toNat = n := by
    rw [← BitVec.toNat_inj, BitVec.toNat_ofNat, Nat.mod_eq_of_lt (Finset.mem_range.mp below)]
  simp only [← Option.not_isSome_iff_eq_none, Option.isNone_iff_eq_none, instructionDecoder_isSome_iff,
    List.mem_toFinset, List.mem_map, value]

/-- R55: of the 256 bytes, all but the table's nine opcodes are unknown. -/
theorem unknownOpcodes_length :
    ((List.range 256).filter (fun n => (instructionDecoder (BitVec.ofNat 8 n)).isNone)).length = 247 := by
  have inRange : (dispatchTable.map (fun row => row.opcode.toNat)).toFinset ⊆ Finset.range 256 := by decide
  have nine : (dispatchTable.map (fun row => row.opcode.toNat)).toFinset.card = 9 := by decide
  rw [← List.toFinset_card_of_nodup (List.nodup_range.filter _), List.toFinset_filter, List.toFinset_range,
    unknownOpcodes_eq_sdiff, Finset.card_sdiff_of_subset inRange, Finset.card_range, nine]

/-- Settles O7: the decoder answers a row exactly when the row's opcode is the byte; the nine known bytes are the
table's opcodes, and the unknown ones are the other 247. -/
theorem exactlyNineOpcodesAreKnown : Obligations.ExactlyNineOpcodesAreKnown :=
  ⟨instructionDecoder_eq_some_iff, instructionDecoder_isSome_iff, unknownOpcodes_length⟩

end Sys2Proof.Proofs
end

section
/-! PROOFS. 41_ldi_prn.md: the statement about LDI. -/

namespace Sys2Proof.Proofs

open Sys2Proof.Machine

/-- 60_exceptions.md R127: raising a record leaves what a fault with that record leaves. -/
theorem faultTaken_raise (s : State) (e : ErrRecord) : FaultTaken s (s.raise e) e where
  err := State.raise_err s e
  runState := State.raise_runState s e
  exitStatus := State.raise_exitStatus s e
  mem := State.raise_mem s e
  regs := State.raise_regs s e
  pc := State.raise_pc s e
  out := State.raise_out s e

/-- R85: with an index in range, LDI writes the immediate to the register and advances `pc` by 3. -/
theorem exec_ldi_of_toNat_eq {a : Byte} {r : Fin 8} (named : a.toNat = r.val) (b : Byte) (s : State) :
    exec (.ldi a b) s = .next ((s.setReg r (uval b)).advancePc 3) :=
  requireReg_of_eq named

/-- R85: with an index above 7, LDI raises RegIndexFault. -/
theorem exec_ldi_of_lt_toNat {a : Byte} (above : 7 < a.toNat) (b : Byte) (s : State) :
    exec (.ldi a b) s = .next (s.raise (.regIndex opcodeLdi s.pc a)) :=
  requireReg_fault above

/-- Settles O20, by the two outcomes of the index check: in range, the successor is a register write and a `pc`
advance, whose laws give each clause; above 7, it is the state with the fault's record raised. -/
theorem ldiLoadsTheImmediate : Obligations.LdiLoadsTheImmediate := by
  intro a b s
  refine ⟨rfl, fun r named => ⟨_, exec_ldi_of_toNat_eq named b s, ?_, ?_, ?_, ?_, ?_, ?_⟩,
    fun above => ⟨_, exec_ldi_of_lt_toNat above b s, faultTaken_raise s _⟩⟩
  · rw [State.advancePc_reg, State.reg_setReg_same, narrow_uval]
  · exact narrow_add_toNat s.pc 3
  · intro q other
    rw [State.advancePc_reg, State.reg_setReg_other s (List.ne_of_not_mem_cons other).symm]
  · intro cell _
    rw [State.advancePc_memRead, State.setReg_memRead]
  · exact ⟨State.advancePc_runState _ 3, State.advancePc_err _ 3, State.advancePc_exitStatus _ 3⟩
  · exact State.advancePc_out _ 3

end Sys2Proof.Proofs
end

section
/-! PROOFS. 42_alu.md: the statements about the sum and the product, of the ALU and of ADD and MUL. -/

namespace Sys2Proof.Proofs

open Sys2Proof.Machine

/-- R91: the low byte of the sum. -/
theorem alu_add_toNat (va vb : Byte) : (alu .add va vb).toNat = (va.toNat + vb.toNat) % 256 := by
  have reduced : ((alu .add va vb).toNat : Int) = (va.toNat + vb.toNat) % 256 := uval_alu .add va vb
  exact_mod_cast reduced

/-- R93: the low byte of the product. -/
theorem alu_mul_toNat (va vb : Byte) : (alu .mul va vb).toNat = (va.toNat * vb.toNat) % 256 := by
  have reduced : ((alu .mul va vb).toNat : Int) = (va.toNat * vb.toNat) % 256 := uval_alu .mul va vb
  exact_mod_cast reduced

/-- Settles O22, from the law that an ALU result is the exact one modulo 256, read as natural numbers. -/
theorem aluAddAndMulReduceModulo256 : Obligations.AluAddAndMulReduceModulo256 :=
  fun va vb => ⟨alu_add_toNat va vb, alu_mul_toNat va vb⟩

section
variable {ir a b : Byte} {s : State} {f : Fin 8 → Fin 8 → State}

/-- 40_run_loop_and_hlt.md R74: with both indices in range, an instruction of two registers goes on to its effect. -/
theorem requireReg_both_of_eq {ra rb : Fin 8} (first : a.toNat = ra.val) (second : b.toNat = rb.val) :
    (requireReg ir a s fun qa => requireReg ir b s fun qb => .next (f qa qb)) = .next (f ra rb) :=
  (requireReg_of_eq first).trans (requireReg_of_eq second)

/-- 40_run_loop_and_hlt.md R74: with the first index in range, a second one above 7 raises RegIndexFault. -/
theorem requireReg_both_second_fault (first : a.toNat ≤ 7) (second : 7 < b.toNat) :
    (requireReg ir a s fun qa => requireReg ir b s fun qb => .next (f qa qb)) =
      .next (s.raise (.regIndex ir s.pc b)) :=
  (requireReg_ok (Nat.lt_succ_of_le first)).trans (requireReg_fault second)

end

/-- A register write followed by a `pc` advance changes that register and `pc` alone. -/
theorem setReg_advancePc_frame {s t : State} {r : Fin 8} {v : Int} {n : Nat} (eq : t = (s.setReg r v).advancePc n) :
    t.pc.toNat = (s.pc.toNat + n) % 256 ∧
      SameRegsExcept [r] s t ∧ SameMemoryExcept [] s t ∧ SameStatus s t ∧ t.out = s.out := by
  subst eq
  refine ⟨narrow_add_toNat s.pc n, fun q other => ?_, fun cell _ => ?_, ⟨rfl, rfl, rfl⟩, State.advancePc_out _ n⟩
  · rw [State.advancePc_reg, State.reg_setReg_other s (List.ne_of_not_mem_cons other).symm]
  · rw [State.advancePc_memRead, State.setReg_memRead]

/-- R95, R96, for any operation of the ALU whose result is `f` modulo 256: both indices in range, the first register
holds that result and the frame of a register write gives the rest; otherwise the first index above 7 faults. -/
theorem exec_of_aluRule {i : Instr} {ir a b : Byte} {s : State} {op : AluOp}
    (rule : exec i s = requireReg ir a s fun ra => requireReg ir b s fun rb =>
      .next ((aluApply op ra rb s).advancePc 3))
    (f : Nat → Nat → Nat) (result : ∀ va vb, (alu op va vb).toNat = f va.toNat vb.toNat % 256) :
    (∀ ra rb : Fin 8, a.toNat = ra.val → b.toNat = rb.val → ∃ t, exec i s = .next t ∧
      (t.reg ra).toNat = f (s.reg ra).toNat (s.reg rb).toNat % 256 ∧ t.pc.toNat = (s.pc.toNat + 3) % 256 ∧
      SameRegsExcept [ra] s t ∧ SameMemoryExcept [] s t ∧ SameStatus s t ∧ t.out = s.out) ∧
    (7 < a.toNat → ∃ t, exec i s = .next t ∧ FaultTaken s t (.regIndex ir s.pc a)) ∧
    (a.toNat ≤ 7 → 7 < b.toNat → ∃ t, exec i s = .next t ∧ FaultTaken s t (.regIndex ir s.pc b)) := by
  rw [rule]
  refine ⟨fun ra rb first second => ⟨_, requireReg_both_of_eq first second, ?_, setReg_advancePc_frame rfl⟩,
    fun above => ⟨_, requireReg_fault above, faultTaken_raise s _⟩,
    fun first above => ⟨_, requireReg_both_second_fault first above, faultTaken_raise s _⟩⟩
  rw [State.advancePc_reg, reg_aluApply, if_pos rfl, result]

/-- Settles O26: ADD is the rule of an ALU instruction with the sum as its result. -/
theorem addLeavesTheSum : Obligations.AddLeavesTheSum :=
  fun _ _ _ => ⟨rfl, exec_of_aluRule rfl (· + ·) alu_add_toNat⟩

/-- Settles O27: MUL is the rule of an ALU instruction with the product as its result. -/
theorem mulLeavesTheLowProduct : Obligations.MulLeavesTheLowProduct :=
  fun _ _ _ => ⟨rfl, exec_of_aluRule rfl (· * ·) alu_mul_toNat⟩

end Sys2Proof.Proofs
end

section
/-! PROOFS. 44_call_ret.md: the statement about RET. -/

namespace Sys2Proof.Proofs

open Sys2Proof.Machine

/-- Settles O31: RET's successor is a `pc` write of the byte at the old SP, then an increment of SP. The `pc` law
gives the target and the register law the new SP; neither update touches memory, the status or the output. -/
theorem retTakesThePcFromTheStack : Obligations.RetTakesThePcFromTheStack := by
  intro a b s
  refine ⟨rfl, (s.setPc (uval s.loadAtSp)).incSp, rfl, ?_, ?_, ?_, ?_, ?_, ?_⟩
  · calc (s.setPc (uval s.loadAtSp)).incSp.pc
      _ = narrow (uval s.loadAtSp) := by rw [State.incSp_pc, State.setPc_pc]
      _ = s.memRead (s.reg 7).toNat := narrow_uval s.loadAtSp
  · rw [State.reg_incSp, if_pos rfl, State.setPc_reg]
    exact narrow_add_toNat (s.reg 7) 1
  · intro q other
    rw [State.reg_incSp, if_neg (List.ne_of_not_mem_cons other).symm, State.setPc_reg]
  · intro cell _
    rw [State.incSp_memRead, State.setPc_memRead]
  · exact ⟨State.incSp_runState _, State.incSp_err _, State.incSp_exitStatus _⟩
  · exact State.incSp_out _

end Sys2Proof.Proofs
end

section
/-! PROOFS. 60_exceptions.md: the statement about UnknownOpcode. -/

namespace Sys2Proof.Proofs

open Sys2Proof.Machine

/-- 30_encoding.md R55: bytes whose first is no opcode of the table are rejected by name, whatever the operand bytes. -/
theorem decodeFetched_of_not_mem {ir : Byte} (unlisted : ir ∉ dispatchTable.map Row.opcode) (a b : Byte) :
    decodeFetched ir a b = .error (.unknownOpcode ir) := by
  have unknown : instructionDecoder ir = none :=
    Option.not_isSome_iff_eq_none.mp (mt (instructionDecoder_isSome_iff ir).mp unlisted)
  rw [decodeFetched, unknown]

/-- 40_run_loop_and_hlt.md R70: in RUNNING, a fetch that decodes to no instruction raises UnknownOpcode with the byte at
`pc` and its address. -/
theorem step_of_decodeAt_error {s : State} {e : DecodeError} (running : s.runState = .running)
    (rejected : decodeAt s = .error e) :
    step s = .next (s.raise (.unknownOpcode (s.memRead (uval s.pc)) s.pc)) := by
  rw [step, running, rejected]
  rfl

/-- Settles O15: the fetched opcode is the byte at `pc`, which the decoder rejects; so the step raises UnknownOpcode,
and raising a record leaves what a fault leaves. -/
theorem unknownOpcodeFaultIsTaken : Obligations.UnknownOpcodeFaultIsTaken := by
  intro s running unlisted
  have rejected : decodeAt s = .error (.unknownOpcode (s.memRead (uval s.pc))) := decodeFetched_of_not_mem unlisted _ _
  exact ⟨_, step_of_decodeAt_error running rejected, faultTaken_raise s _⟩

end Sys2Proof.Proofs
end

section
/-! PROOFS. 30_encoding.md: the statements about the table, the decoder and the encoder, and what is fetched of a stored
instruction (20_memory.md, 40_run_loop_and_hlt.md R71, R72). -/

namespace Sys2Proof.Proofs

open Sys2Proof.Machine

/-- Settles O6: each word's bytes are the opcode of a row of the table and its operands. -/
theorem tableWordsDecode : Obligations.TableWordsDecode :=
  ⟨rfl, rfl, rfl, rfl, rfl, rfl, rfl, rfl, rfl⟩

/-- Settles O8: the lengths are read off the nine rows, and their opcodes are distinct. -/
theorem rowLengthsAndOpcodesAreConsistent : Obligations.RowLengthsAndOpcodesAreConsistent :=
  ⟨by decide, List.pairwise_map.mp dispatchTable_opcodes_nodup⟩

/-- R50, R53: every instruction has the shape its row of the table calls for. -/
theorem encodingShape : ∀ i : Instr, Laws.EncodingShape.Statement i
  | .hlt => Laws.EncodingShape.hlt
  | .ldi a b => Laws.EncodingShape.ldi a b
  | .prn a => Laws.EncodingShape.prn a
  | .add a b => Laws.EncodingShape.add a b
  | .mul a b => Laws.EncodingShape.mul a b
  | .push a => Laws.EncodingShape.push a
  | .pop a => Laws.EncodingShape.pop a
  | .call a => Laws.EncodingShape.call a
  | .ret => Laws.EncodingShape.ret

/-- R51: an instruction is made of its own operand bytes, whatever bytes come after them. -/
theorem decodeFetched_opcodeOf {i : Instr} {a b : Byte} (spelled : operandsOf i <+: [a, b]) :
    decodeFetched (opcodeOf i) a b = .ok i := by
  obtain ⟨rest, spelled⟩ := spelled
  cases i with
  | hlt | ret => rfl
  | prn _ | push _ | pop _ | call _ => cases spelled; rfl
  | ldi _ _ | add _ _ | mul _ _ => cases spelled; rfl

/-- R53, R57: what decodes has its operand bytes in front of the fetched ones. -/
theorem operandsOf_prefix_of_decodeFetched {ir a b : Byte} {i : Instr} (decoded : decodeFetched ir a b = .ok i) :
    operandsOf i <+: [a, b] := by
  rcases decodeFetched_cases ir a b with ⟨-, h⟩ | ⟨-, h⟩ | ⟨-, h⟩ | ⟨-, h⟩ | ⟨-, h⟩ | ⟨-, h⟩ | ⟨-, h⟩ | ⟨-, h⟩ |
    ⟨-, h⟩ | ⟨-, h⟩ <;> cases h.symm.trans decoded <;> simp [operandsOf]

/-- R57: three fetched bytes decode to an instruction exactly when its encoding stands in front of them. -/
theorem decodeFetched_eq_ok_iff {ir a b : Byte} {i : Instr} :
    decodeFetched ir a b = .ok i ↔ encode i <+: [ir, a, b] := by
  rw [encode, List.cons_prefix_cons]
  constructor
  · exact fun decoded => ⟨opcodeOf_of_decodeFetched decoded, operandsOf_prefix_of_decodeFetched decoded⟩
  · rintro ⟨rfl, spelled⟩
    exact decodeFetched_opcodeOf spelled

/-- Settles O11: the encoding stands in front of the fetched bytes and is as long as its row says. -/
theorem decodedInstructionSpellsItsBytes : Obligations.DecodedInstructionSpellsItsBytes := by
  intro ir a b i decoded
  obtain ⟨row, found, opcode, length, -, -⟩ := encodingShape i
  rw [opcodeOf_of_decodeFetched decoded] at found opcode
  refine ⟨row, found, opcode, ?_⟩
  rw [← length]
  exact List.prefix_iff_eq_take.mp (decodeFetched_eq_ok_iff.mp decoded)

/-- Settles O12: the bytes that are replaced come after the encoding, so it still stands in front. -/
theorem unusedOperandBytesAreIgnored : Obligations.UnusedOperandBytesAreIgnored := by
  intro ir a b a' b' i decoded
  obtain rfl := opcodeOf_of_decodeFetched decoded
  have spelled := List.prefix_iff_eq_take.mp (operandsOf_prefix_of_decodeFetched decoded)
  refine ⟨fun none => decodeFetched_opcodeOf ?_, fun one => decodeFetched_opcodeOf ?_⟩
  · rw [List.length_eq_zero_iff.mp none]
    exact List.nil_prefix
  · rw [spelled, one]
    exact List.take_prefix 1 [a, b']

/-- R51: the two bytes after an opcode, when operands and more bytes follow it, begin with the operands. -/
theorem operandsOf_prefix_getD (i : Instr) (rest : List Byte) :
    operandsOf i <+: [(operandsOf i ++ rest).getD 0 0, (operandsOf i ++ rest).getD 1 0] := by
  cases i <;> simp [operandsOf]

/-- Settles O9: the row that the opcode selects asks for as many bytes as there are operands, makes the instruction
of them, and what is left after them is `rest`. -/
theorem decodeOfEncodeIsTheInstruction : Obligations.DecodeOfEncodeIsTheInstruction := by
  intro i rest
  obtain ⟨row, found, -, -, operands, -⟩ := encodingShape i
  have decoded := decodeFetched_opcodeOf (operandsOf_prefix_getD i rest)
  rw [decodeFetched, found] at decoded
  have enough : ¬ (operandsOf i ++ rest).length < (operandsOf i).length := by
    rw [List.length_append]
    omega
  simp only [encode, List.cons_append, decode, found, ← operands, if_neg enough, List.drop_left]
  rw [Except.ok.inj decoded]

/-- 20_memory.md R31: bytes written from `a` on leave a cell that none of them is written to, modulo 256. -/
theorem memRead_writeFrom_other (image : List Byte) (s : State) (a : Nat) {n : Int}
    (other : ∀ k < image.length, n % 256 ≠ ((a + k : Nat) : Int) % 256) :
    (writeFrom s a image).memRead n = s.memRead n := by
  induction image generalizing s a with
  | nil => rfl
  | cons b image ih =>
    rw [writeFrom, ih _ _ fun k below => ?_, State.memRead_memWrite, if_neg (by simpa using other 0)]
    rw [Nat.add_right_comm]
    exact other (k + 1) (Nat.succ_lt_succ below)

/-- 20_memory.md R31, R46: at most 256 bytes written from `a` on, around the top of memory if need be, are read back. -/
theorem memRead_writeFrom_wrapped (image : List Byte) (s : State) (a : Nat) (fits : image.length ≤ 256) {k : Nat}
    (below : k < image.length) : (writeFrom s a image).memRead ((a + k : Nat) : Int) = image[k] := by
  induction image generalizing s a k with
  | nil => exact absurd below (Nat.not_lt_zero k)
  | cons b image ih =>
    rw [List.length_cons] at fits
    rw [writeFrom]
    cases k with
    | zero =>
      rw [memRead_writeFrom_other _ _ _ (by omega), State.memRead_memWrite, if_pos (by simp), narrow_uval]
      rfl
    | succ k =>
      rw [show a + (k + 1) = a + 1 + k by omega]
      exact ih _ _ (by omega) (Nat.lt_of_succ_lt_succ below)

/-- R50: no instruction has more than three bytes. -/
theorem encode_length_le (i : Instr) : (encode i).length ≤ 3 := by
  cases i <;> simp [encode, operandsOf]

/-- 40_run_loop_and_hlt.md R71, R72: what is at `pc` decodes to an instruction whose bytes are read from `pc` on. -/
theorem decodeAt_of_memRead {s : State} {i : Instr}
    (stored : ∀ k (below : k < (encode i).length), s.memRead ((s.pc.toNat + k : Nat) : Int) = (encode i)[k]) :
    decodeAt s = .ok i := by
  refine decodeFetched_eq_ok_iff.mpr (List.prefix_iff_getElem.mpr ⟨encode_length_le i, fun k below => ?_⟩)
  rw [← stored k below]
  have : k < 3 := Nat.lt_of_lt_of_le below (encode_length_le i)
  interval_cases k <;> rfl

/-- Settles O10: writing the bytes leaves `pc`, and they are read back from there on, around the top of memory too. -/
theorem storedInstructionIsFetched : Obligations.StoredInstructionIsFetched := by
  intro i s
  have fits : (encode i).length ≤ 256 := (encode_length_le i).trans (by decide)
  obtain ⟨m, written⟩ := writeFrom_changes_memory_only (encode i) s s.pc.toNat
  have pc : (writeFrom s s.pc.toNat (encode i)).pc = s.pc := by rw [written]
  refine decodeAt_of_memRead fun k below => ?_
  rw [pc]
  exact memRead_writeFrom_wrapped (encode i) s s.pc.toNat fits below

/-- Settles O13: an address counts modulo 256 only. -/
theorem fetchReadsThreeBytes : Obligations.FetchReadsThreeBytes := by
  intro s
  refine ⟨rfl, State.memRead_congr s ?_, State.memRead_congr s ?_⟩
  · simp [uval]
  · simp [uval]

end Sys2Proof.Proofs
end

section
/-! PROOFS. 40_run_loop_and_hlt.md: everything an instruction leaves unchanged, said once, and what a step can do. -/

namespace Sys2Proof.Proofs

open Sys2Proof.Machine

/-- 10_state.md R13: register `q` is one the instruction may write: SP for the instructions of the stack, and the
register that the first operand names for LDI, ADD, MUL and POP. -/
def MayWriteReg (q : Fin 8) : Instr → Prop
  | .ldi a _ | .add a _ | .mul a _ => q.val = a.toNat
  | .pop a => q.val = a.toNat ∨ q = 7
  | .push _ | .call _ | .ret => q = 7
  | .hlt | .prn _ => False

/-- 20_memory.md R43: the instruction writes memory. -/
def WritesMemory : Instr → Prop
  | .push _ | .call _ => True
  | _ => False

/-- What the effect `t` of `i` on `s` leaves unchanged, for every instruction. -/
structure Frame (i : Instr) (s t : State) : Prop where
  reg    : ∀ q, ¬ MayWriteReg q i → t.reg q = s.reg q
  mem    : t.mem = s.mem ∨ WritesMemory i ∧ ∃ v, t.mem = (s.decSp.storeAtSp v).mem
  out    : t.out = s.out ∨ (∃ a, i = .prn a) ∧ ∃ v, t.out = s.out ++ [v]
  err    : t.err = s.err
  status : i = .hlt ∧ t = s.halt ∨ i ≠ .hlt ∧ SameStatus s t

section
variable {i : Instr} {s : State}

/-- HLT writes no register. -/
theorem ne_hlt_of_mayWriteReg {q : Fin 8} (mayWrite : MayWriteReg q i) : i ≠ .hlt := by
  rintro rfl
  exact mayWrite

/-- A register the instruction may not write is another than one it may write. -/
theorem ne_of_mayWriteReg {r q : Fin 8} (mayWrite : MayWriteReg r i) (unwritten : ¬ MayWriteReg q i) : r ≠ q := by
  rintro rfl
  exact unwritten mayWrite

/-- A register write and a `pc` write have the frame of an instruction that may write that register. -/
theorem frame_setReg_setPc {r : Fin 8} (mayWrite : MayWriteReg r i) (v w : Int) :
    Frame i s ((s.setReg r v).setPc w) where
  reg _ unwritten := State.reg_setReg_other s (ne_of_mayWriteReg mayWrite unwritten) v
  mem := .inl rfl
  out := .inl rfl
  err := rfl
  status := .inr ⟨ne_hlt_of_mayWriteReg mayWrite, rfl, rfl, rfl⟩

/-- Decrementing SP, storing there and a `pc` write have the frame of PUSH and CALL. -/
theorem frame_decSp_storeAtSp_setPc (mayWrite : MayWriteReg 7 i) (writes : WritesMemory i)
    (v w : Int) : Frame i s ((s.decSp.storeAtSp v).setPc w) where
  reg q unwritten := (State.reg_decSp s q).trans (if_neg (ne_of_mayWriteReg mayWrite unwritten))
  mem := .inr ⟨writes, v, rfl⟩
  out := .inl rfl
  err := rfl
  status := .inr ⟨ne_hlt_of_mayWriteReg mayWrite, rfl, rfl, rfl⟩

end

/-- Every effect has the frame of its instruction. -/
theorem frame_of_effect {i : Instr} {s t : State} (effect : Effect i s t) : Frame i s t := by
  cases i with
  | hlt =>
    obtain rfl := effect
    exact ⟨fun _ _ => rfl, .inl rfl, .inl rfl, rfl, .inl ⟨rfl, rfl⟩⟩
  | prn a =>
    obtain ⟨r, -, rfl⟩ := effect
    exact ⟨fun _ _ => rfl, .inl rfl, .inr ⟨⟨a, rfl⟩, _, rfl⟩, rfl, .inr ⟨nofun, rfl, rfl, rfl⟩⟩
  | ldi a b =>
    obtain ⟨r, named, rfl⟩ := effect
    refine frame_setReg_setPc ?_ _ _
    exact named.symm
  | add a b | mul a b =>
    obtain ⟨ra, rb, named, -, rfl⟩ := effect
    refine frame_setReg_setPc ?_ _ _
    exact named.symm
  | push a | call a =>
    obtain ⟨r, -, rfl⟩ := effect
    refine frame_decSp_storeAtSp_setPc ?_ ?_ _ _
    exacts [rfl, trivial]
  | pop a =>
    obtain ⟨r, named, rfl⟩ := effect
    refine ⟨fun q unwritten => ?_, .inl rfl, .inl rfl, rfl, .inr ⟨nofun, rfl, rfl, rfl⟩⟩
    have notNamed : r ≠ q := ne_of_mayWriteReg (i := .pop a) (.inl named.symm) unwritten
    have notSp : 7 ≠ q := ne_of_mayWriteReg (i := .pop a) (.inr rfl) unwritten
    rw [State.advancePc_reg, State.reg_incSp, if_neg notSp, State.reg_setReg_other s notNamed]
  | ret =>
    obtain rfl := effect
    refine ⟨fun q unwritten => ?_, .inl rfl, .inl rfl, rfl, .inr ⟨nofun, rfl, rfl, rfl⟩⟩
    rw [State.reg_incSp, if_neg fun same => unwritten same.symm, State.setPc_reg]

/-- What a step can do: the effect of the instruction it decodes, or a fault. -/
theorem step_cases {s t : State} (stepped : step s = .next t) :
    s.runState = .running ∧
      ((∃ i, decodeAt s = .ok i ∧ exec i s = .next t ∧ Effect i s t) ∨ ∃ e, t = s.raise e) := by
  obtain ⟨running, ⟨i, decoded, executed⟩ | ⟨-, -, raised⟩⟩ := step_next_inv stepped
  · refine ⟨running, ?_⟩
    obtain ⟨-, effect⟩ | ⟨-, v, -, raised⟩ := exec_next_inv executed
    · exact .inl ⟨i, decoded, executed, effect⟩
    · exact .inr ⟨_, raised⟩
  · exact ⟨running, .inr ⟨_, raised⟩⟩

end Sys2Proof.Proofs
end

section
/-! PROOFS. The invariant: a step keeps memory canonical and the observables coherent. -/

namespace Sys2Proof.Proofs

open Sys2Proof.Machine

/-- A memory write is at an address below 256, so every effect keeps memory canonical. -/
theorem memory_wf_of_frame {i : Instr} {s t : State} (frame : Frame i s t) (wf : Memory.wf s.mem) :
    Memory.wf t.mem := by
  obtain same | ⟨-, v, stored⟩ := frame.mem
  · rwa [same]
  · rw [stored]
    exact State.memWrite_wf (s := s.decSp) wf _ _

/-- 10_state.md R24: HLT and a fault set the status of a machine that had none; nothing else touches it. -/
theorem statusCoherent_of_frame {i : Instr} {s t : State} (frame : Frame i s t) (running : s.runState = .running)
    (coherent : s.StatusCoherent) : t.StatusCoherent := by
  obtain ⟨rfl, rfl⟩ | ⟨-, runState, err, exitStatus⟩ := frame.status
  · refine ⟨nofun, fun _ => ⟨?_, rfl⟩⟩
    rw [State.halt_err, (coherent.1 running).1]
    exact Nat.zero_le 1
  · rwa [State.StatusCoherent, runState, err, exitStatus]

/-- 60_exceptions.md R127: the fault's record is the first. -/
theorem statusCoherent_raise {s : State} (running : s.runState = .running) (coherent : s.StatusCoherent)
    (e : ErrRecord) : (s.raise e).StatusCoherent := by
  refine ⟨nofun, fun _ => ⟨?_, rfl⟩⟩
  rw [State.raise_err, (coherent.1 running).1]
  exact Nat.le_refl 1

/-- Settles O46: an effect keeps both halves of the invariant by its frame; a fault leaves memory and sets status. -/
theorem everyStepKeepsTheInvariant : Obligations.EveryStepKeepsTheInvariant := by
  intro s t ⟨wf, coherent⟩ stepped
  obtain ⟨running, ⟨i, -, -, effect⟩ | ⟨e, rfl⟩⟩ := step_cases stepped
  · have frame := frame_of_effect effect
    exact ⟨memory_wf_of_frame frame wf, statusCoherent_of_frame frame running coherent⟩
  · exact ⟨wf, statusCoherent_raise running coherent e⟩

/-- Settles O47: the reset memory is empty, and the observables are those of a RUNNING machine. -/
theorem resetMeetsTheInvariant : Obligations.ResetMeetsTheInvariant :=
  ⟨Memory.nil_wf, fun _ => ⟨rfl, rfl⟩, nofun⟩

end Sys2Proof.Proofs
end

section
/-! PROOFS. Changes of the state that pass through an instruction: performing it after the change is performing it
before. Two such changes: earlier entries in the observables (10_state.md R24), and a register that the instruction does
not name (R13). -/

namespace Sys2Proof.Proofs

open Sys2Proof.Machine

/-- `x` with `past` before it: in the streams the older items, and a status that stands until a new one is presented. -/
def withPast (past s : State) : State :=
  { s with out := past.out ++ s.out, err := past.err ++ s.err, exitStatus := s.exitStatus.or past.exitStatus }

/-- The state with empty observables. -/
def withoutObservables (s : State) : State := { s with out := [], err := [], exitStatus := none }

/-- 40_run_loop_and_hlt.md R74: a change of the state that leaves `pc` alone and passes through a fault passes through
an index check when it passes through what follows. -/
theorem requireReg_mapNext {f : State → State} {s : State} (pc : (f s).pc = s.pc)
    (fault : ∀ e, (f s).raise e = f (s.raise e)) {ir v : Byte} {k k' : Fin 8 → Result}
    (follow : ∀ r : Fin 8, v.toNat = r.val → k' r = mapNext f (k r)) :
    requireReg ir v (f s) k' = mapNext f (requireReg ir v s k) := by
  by_cases inRange : v.toNat < 8
  · rw [requireReg_ok inRange, requireReg_ok inRange]
    exact follow _ rfl
  · rw [requireReg_fault (Nat.le_of_not_lt inRange), requireReg_fault (Nat.le_of_not_lt inRange), pc, fault]
    rfl

/-- 60_exceptions.md R127: a fault's record comes after the older ones, and its status stands. -/
theorem withPast_raise (past s : State) (e : ErrRecord) : (withPast past s).raise e = withPast past (s.raise e) := by
  simp [withPast, State.raise, State.emitErr, State.haltWith]

/-- R24: a printed byte comes after the older ones. -/
theorem withPast_emitOut (past s : State) (v : Byte) : (withPast past s).emitOut v = withPast past (s.emitOut v) := by
  simp [withPast, State.emitOut]

/-- A state is itself without observables, with its own put in front. -/
theorem withPast_withoutObservables (s : State) : withPast s (withoutObservables s) = s := by
  simp [withPast, withoutObservables]

/-- 40_run_loop_and_hlt.md R74: older entries pass through an index check. -/
theorem requireReg_withPast (past s : State) {ir o : Byte} {k k' : Fin 8 → Result}
    (follow : ∀ r, k' r = mapNext (withPast past) (k r)) :
    requireReg ir o (withPast past s) k' = mapNext (withPast past) (requireReg ir o s k) :=
  requireReg_mapNext rfl (withPast_raise past s) fun r _ => follow r

/-- 10_state.md R24: no instruction reads the observables, and what it appends comes after what was there. -/
theorem exec_withPast (past : State) (i : Instr) (s : State) :
    exec i (withPast past s) = mapNext (withPast past) (exec i s) := by
  cases i with
  | hlt | ret => rfl
  | ldi a b | push a | pop a | call a => exact requireReg_withPast past s fun _ => rfl
  | prn a =>
    refine requireReg_withPast past s fun r => ?_
    exact congrArg (fun t => Host.Outcome.next (t.advancePc 2)) (withPast_emitOut past s (s.reg r))
  | add a b | mul a b =>
    exact requireReg_withPast past s fun _ => requireReg_withPast past s fun _ => rfl

/-- Nor does a step. -/
theorem step_withPast (past s : State) : step (withPast past s) = mapNext (withPast past) (step s) := by
  have decoded : decodeAt (withPast past s) = decodeAt s := rfl
  have runState : (withPast past s).runState = s.runState := rfl
  unfold step
  rw [runState, decoded]
  cases s.runState with
  | halted => rfl
  | running =>
    cases decodeAt s with
    | ok i => exact exec_withPast past i s
    | error e => exact congrArg Host.Outcome.next (withPast_raise past s _)

/-- 10_state.md R10: without observables, states that agree in all but them are one state. -/
theorem withoutObservables_eq_of_sameArchitecture {s t : State} (same : SameArchitecture s t) :
    withoutObservables t = withoutObservables s := by
  obtain ⟨mem, regs, pc, runState⟩ := same
  simp only [withoutObservables, mem, regs, pc, runState]

/-- A step is the step without observables, with the observables before it put in front. -/
theorem step_eq_withoutObservables (s : State) : step s = mapNext (withPast s) (step (withoutObservables s)) := by
  rw [← step_withPast, withPast_withoutObservables]

/-- 60_exceptions.md R131: a step that halts presents status 1. -/
theorem exitStatus_of_step_halted {s t : State} (stepped : step s = .next t) (halted : t.runState = .halted) :
    t.exitStatus = some 1 := by
  obtain ⟨running, ⟨i, -, -, effect⟩ | ⟨e, rfl⟩⟩ := step_cases stepped
  · obtain ⟨-, rfl⟩ | ⟨-, same⟩ := (frame_of_effect effect).status
    · rfl
    · rw [same.runState, running] at halted
      cases halted
  · rfl

/-- Settles O48: both states step as the one state without observables does, each with its own past in front. -/
theorem observablesNeverInfluenceAStep : Obligations.ObservablesNeverInfluenceAStep := by
  intro s s' same
  have common := step_eq_withoutObservables s'
  rw [withoutObservables_eq_of_sameArchitecture same] at common
  rw [step_eq_withoutObservables s, common]
  cases outcome : step (withoutObservables s) with
  | next u =>
    refine ⟨?_, nofun⟩
    rintro _ ⟨⟩
    refine ⟨_, u.out, u.err, rfl, ⟨rfl, rfl, rfl, rfl⟩, rfl, rfl, rfl, rfl, fun halted => ?_⟩
    simp only [withPast, exitStatus_of_step_halted outcome halted, Option.some_or]
  | fault r => exact ⟨nofun, fun _ => id⟩
  | refused r => exact ⟨nofun, nofun⟩

section
variable {k : Fin 8} (s : State) (v : Int)

/-- 40_run_loop_and_hlt.md R74: a register write passes through an index check. -/
theorem requireReg_setReg {ir o : Byte} {f f' : Fin 8 → Result}
    (follow : ∀ r : Fin 8, o.toNat = r.val → f' r = mapNext (State.setReg · k v) (f r)) :
    requireReg ir o (s.setReg k v) f' = mapNext (State.setReg · k v) (requireReg ir o s f) :=
  requireReg_mapNext (f := (State.setReg · k v)) rfl (fun _ => rfl) follow

theorem setReg_setReg_comm {r : Fin 8} (other : k ≠ r) (w : Int) :
    (s.setReg k v).setReg r w = (s.setReg r w).setReg k v := by
  simp only [State.setReg, Vector.set_comm _ _ (Fin.val_ne_of_ne other)]

theorem decSp_setReg (other : k ≠ 7) : (s.setReg k v).decSp = s.decSp.setReg k v := by
  rw [State.decSp, State.sp_eq, State.reg_setReg_other s other]
  exact setReg_setReg_comm s v other _

theorem incSp_setReg (other : k ≠ 7) : (s.setReg k v).incSp = s.incSp.setReg k v := by
  rw [State.incSp, State.sp_eq, State.reg_setReg_other s other]
  exact setReg_setReg_comm s v other _

theorem storeAtSp_setReg (other : k ≠ 7) (w : Int) :
    (s.setReg k v).storeAtSp w = (s.storeAtSp w).setReg k v := by
  rw [State.storeAtSp, State.sp_eq, State.reg_setReg_other s other]
  rfl

theorem loadAtSp_setReg (other : k ≠ 7) : (s.setReg k v).loadAtSp = s.loadAtSp := by
  rw [State.loadAtSp_eq, State.reg_setReg_other s other]
  rfl

theorem aluApply_setReg {ra rb : Fin 8} (first : k ≠ ra) (second : k ≠ rb) (op : AluOp) :
    aluApply op ra rb (s.setReg k v) = (aluApply op ra rb s).setReg k v := by
  rw [aluApply, State.reg_setReg_other s first, State.reg_setReg_other s second]
  exact setReg_setReg_comm s v first _

end

/-- 10_state.md R13: an operand that is not the number of a register does not name it. -/
theorem ne_of_toNat_ne {o : Byte} {k r : Fin 8} (unnamed : o.toNat ≠ k.val) (named : o.toNat = r.val) : k ≠ r := by
  rintro rfl
  exact unnamed named

/-- Settles O49: each operation of the rule commutes with the register write, which is to another register. -/
theorem unnamedRegisterIsInvisible : Obligations.UnnamedRegisterIsInvisible := by
  intro i s k v notSp unnamed
  cases i with
  | hlt => rfl
  | ldi a b =>
    refine requireReg_setReg s v fun r named => ?_
    rw [setReg_setReg_comm s v (ne_of_toNat_ne (unnamed a List.mem_cons_self) named)]
    rfl
  | prn a =>
    refine requireReg_setReg s v fun r named => ?_
    rw [State.reg_setReg_other s (ne_of_toNat_ne (unnamed a List.mem_cons_self) named)]
    rfl
  | add a b | mul a b =>
    refine requireReg_setReg s v fun ra first => requireReg_setReg s v fun rb second => ?_
    rw [aluApply_setReg s v (ne_of_toNat_ne (unnamed a List.mem_cons_self) first)
      (ne_of_toNat_ne (unnamed b (List.mem_cons_of_mem a List.mem_cons_self)) second)]
    rfl
  | push a =>
    refine requireReg_setReg s v fun r named => ?_
    have other := ne_of_toNat_ne (unnamed a List.mem_cons_self) named
    simp only [decSp_setReg s v notSp, State.reg_setReg_other _ other, storeAtSp_setReg _ v notSp]
    rfl
  | pop a =>
    refine requireReg_setReg s v fun r named => ?_
    have other := ne_of_toNat_ne (unnamed a List.mem_cons_self) named
    simp only [loadAtSp_setReg s v notSp, setReg_setReg_comm s v other, incSp_setReg _ v notSp]
    rfl
  | call a =>
    refine requireReg_setReg s v fun r named => ?_
    have other := ne_of_toNat_ne (unnamed a List.mem_cons_self) named
    simp only [decSp_setReg s v notSp, State.setReg_pc, storeAtSp_setReg _ v notSp, State.reg_setReg_other _ other]
    rfl
  | ret =>
    refine congrArg Host.Outcome.next ?_
    rw [loadAtSp_setReg s v notSp]
    exact incSp_setReg (s.setPc _) v notSp

end Sys2Proof.Proofs
end

section
/-! PROOFS. 40_run_loop_and_hlt.md: the statements about the step, HLT and the index check. -/

namespace Sys2Proof.Proofs

open Sys2Proof.Machine

/-- R70, R73: in RUNNING, a fetch that decodes is followed by the rule of the instruction. -/
theorem step_of_decodeAt_ok {s : State} {i : Instr} (running : s.runState = .running) (decoded : decodeAt s = .ok i) :
    step s = exec i s := by
  rw [step, running, decoded]

/-- Settles O14: of the two branches of a RUNNING step, the one for a decoded instruction is taken. -/
theorem stepRunsTheDecodedInstruction : Obligations.StepRunsTheDecodedInstruction :=
  fun _ _ => step_of_decodeAt_ok

/-- Settles O17: the HALTED branch of the step is taken. -/
theorem haltedStateHasNoStep : Obligations.HaltedStateHasNoStep := by
  intro s halted
  rw [step, halted]
  rfl

/-- R70: in RUNNING there is a next state, of an instruction or of UnknownOpcode. -/
theorem exists_step_of_running {s : State} (running : s.runState = .running) : ∃ t, step s = .next t := by
  cases decoded : decodeAt s with
  | ok i =>
    rw [step_of_decodeAt_ok running decoded]
    obtain ⟨t, executed, -⟩ | ⟨v, -, -, executed⟩ := exec_cases i s
    · exact ⟨t, executed⟩
    · exact ⟨_, executed⟩
  | error e => exact ⟨_, step_of_decodeAt_error running decoded⟩

/-- Settles O18: an effect appends to `out` at most, by its frame, and a fault appends its record. -/
theorem runningStepAppendsAtMostOneItem : Obligations.RunningStepAppendsAtMostOneItem := by
  intro s running
  obtain ⟨t, stepped⟩ := exists_step_of_running running
  refine ⟨t, stepped, ?_⟩
  obtain ⟨-, ⟨i, -, -, effect⟩ | ⟨e, rfl⟩⟩ := step_cases stepped
  · have frame := frame_of_effect effect
    obtain silent | ⟨-, v, printed⟩ := frame.out
    · exact .inl ⟨silent, frame.err⟩
    · exact .inr (.inl ⟨v, printed, frame.err⟩)
  · exact .inr (.inr ⟨e, rfl, rfl⟩)

/-- Settles O19: HLT's successor is the state halted with the status for HLT. -/
theorem hltHaltsAndWritesNothingElse : Obligations.HltHaltsAndWritesNothingElse :=
  fun _ _ s => ⟨rfl, s.halt, rfl, rfl, rfl, rfl, rfl, rfl, rfl, rfl⟩

/-- R74: index checks in a row fault for the first operand above 7. If it is not the one checked here, the checks that
follow take the fault. -/
theorem requireReg_of_find? {ir o v : Byte} {rest : List Byte} {s : State} {k : Fin 8 → Result}
    (found : (o :: rest).find? (fun o => decide (8 ≤ o.toNat)) = some v)
    (later : ∀ r, rest.find? (fun o => decide (8 ≤ o.toNat)) = some v → k r = .next (s.raise (.regIndex ir s.pc v))) :
    requireReg ir o s k = .next (s.raise (.regIndex ir s.pc v)) := by
  by_cases above : 8 ≤ o.toNat
  · rw [List.find?_cons_of_pos (by simpa using above), Option.some_inj] at found
    rw [← found]
    exact requireReg_fault above
  · rw [List.find?_cons_of_neg (by simpa using above)] at found
    rw [requireReg_ok (Nat.lt_of_not_le above)]
    exact later _ found

/-- R74 and 60_exceptions.md R126: an instruction raises RegIndexFault for the first index above 7. -/
theorem exec_of_find?_regOperands {i : Instr} {s : State} {v : Byte}
    (found : i.regOperands.find? (fun o => decide (8 ≤ o.toNat)) = some v) :
    exec i s = .next (s.raise (.regIndex (opcodeOf i) s.pc v)) := by
  cases i with
  | hlt | ret => cases found
  | ldi a b | prn a | push a | pop a | call a => exact requireReg_of_find? found nofun
  | add a b | mul a b => exact requireReg_of_find? found fun _ found => requireReg_of_find? found nofun

/-- Settles O16: the fault is taken for the first index above 7, and raising a record leaves what a fault leaves. -/
theorem regIndexFaultIsTaken : Obligations.RegIndexFaultIsTaken :=
  fun _ s _ found => ⟨_, exec_of_find?_regOperands found, faultTaken_raise s _⟩

end Sys2Proof.Proofs
end

section
/-! PROOFS. The frames of the instructions, on every path that gives a next state. -/

namespace Sys2Proof.Proofs

open Sys2Proof.Machine

/-- States with one memory read alike. -/
theorem memRead_eq_of_mem_eq {s t : State} (same : t.mem = s.mem) (n : Int) : t.memRead n = s.memRead n := by
  rw [State.memRead, same, State.memRead]

section
variable {i : Instr} {s t : State}

/-- A next state of an instruction has its frame, or is a fault's, which an ill-formed instruction raises. -/
theorem frame_or_raise_of_exec (executed : exec i s = .next t) :
    Frame i s t ∨ i.wellFormed = false ∧ ∃ e, t = s.raise e := by
  obtain ⟨-, effect⟩ | ⟨illFormed, v, -, raised⟩ := exec_next_inv executed
  · exact .inl (frame_of_effect effect)
  · exact .inr ⟨illFormed, _, raised⟩

/-- 10_state.md R13. -/
theorem reg_eq_of_exec (executed : exec i s = .next t) {q : Fin 8} (unwritten : ¬ MayWriteReg q i) :
    t.reg q = s.reg q := by
  obtain frame | ⟨-, e, rfl⟩ := frame_or_raise_of_exec executed
  · exact frame.reg q unwritten
  · rfl

/-- 20_memory.md R43, for the instructions that do not write memory. -/
theorem sameMemory_of_exec (executed : exec i s = .next t) (keeps : ¬ WritesMemory i) : SameMemoryExcept [] s t := by
  obtain frame | ⟨-, e, rfl⟩ := frame_or_raise_of_exec executed
  · have same := frame.mem.resolve_right fun stored => keeps stored.1
    exact fun cell _ => memRead_eq_of_mem_eq same _
  · exact fun _ _ => rfl

/-- A store at the decremented SP leaves every other byte alone. -/
theorem sameMemoryExcept_of_storeAtSp {v : Int} (stored : t.mem = (s.decSp.storeAtSp v).mem) :
    SameMemoryExcept [s.decSp.sp] s t := by
  intro cell other
  rw [memRead_eq_of_mem_eq stored, State.memRead_storeAtSp_other _ _ (List.ne_of_not_mem_cons other),
    State.decSp_memRead]

/-- 20_memory.md R43, for every instruction. -/
theorem sameMemoryExcept_of_exec (executed : exec i s = .next t) : SameMemoryExcept [s.decSp.sp] s t := by
  obtain frame | ⟨-, e, rfl⟩ := frame_or_raise_of_exec executed
  · obtain same | ⟨-, v, stored⟩ := frame.mem
    · exact fun cell _ => memRead_eq_of_mem_eq same _
    · exact sameMemoryExcept_of_storeAtSp stored
  · exact fun _ _ => rfl

/-- 10_state.md R24: only PRN appends to `out`. -/
theorem out_eq_of_exec (executed : exec i s = .next t) (silent : ∀ a, i ≠ .prn a) : t.out = s.out := by
  obtain frame | ⟨-, e, rfl⟩ := frame_or_raise_of_exec executed
  · exact frame.out.resolve_right fun ⟨⟨a, prn⟩, _⟩ => silent a prn
  · rfl

/-- 40_run_loop_and_hlt.md R75: only HLT and a fault touch the status. -/
theorem sameStatus_of_exec (executed : exec i s = .next t) (notHlt : i ≠ .hlt) (wellFormed : i.wellFormed = true) :
    SameStatus s t := by
  obtain frame | ⟨illFormed, -⟩ := frame_or_raise_of_exec executed
  · exact (frame.status.resolve_left fun hlt => notHlt hlt.1).2
  · rw [wellFormed] at illFormed
    cases illFormed

end

/-- Settles O32: for each of the three, the first operand names the only register that may be written. -/
theorem ldiAddMulFrame : Obligations.LdiAddMulFrame := by
  rintro a b i s t (rfl | rfl | rfl) executed <;>
  exact ⟨fun q other => reg_eq_of_exec executed other, sameMemory_of_exec executed nofun,
    out_eq_of_exec executed nofun, sameStatus_of_exec executed nofun⟩

/-- Settles O33: neither may write a register or memory; HLT's successor is the halted state. -/
theorem hltPrnFrame : Obligations.HltPrnFrame := by
  rintro a i s t (rfl | rfl) executed
  · cases executed
    exact ⟨fun _ _ => rfl, fun _ _ => rfl, fun _ => ⟨rfl, rfl, rfl⟩, nofun⟩
  · exact ⟨fun q _ => reg_eq_of_exec executed nofun, sameMemory_of_exec executed nofun, nofun,
      fun _ => sameStatus_of_exec executed nofun⟩

/-- Settles O34: SP is the only register that may be written, and the store is at the decremented SP. -/
theorem pushCallFrame : Obligations.PushCallFrame := by
  rintro a i s t (rfl | rfl) executed <;>
  exact ⟨fun q other => reg_eq_of_exec executed (List.ne_of_not_mem_cons other), sameMemoryExcept_of_exec executed,
    out_eq_of_exec executed nofun, sameStatus_of_exec executed nofun⟩

/-- Settles O35: SP and the register that POP names are the only ones that may be written. -/
theorem popRetFrame : Obligations.PopRetFrame := by
  rintro a i s t (rfl | rfl) executed
  · exact ⟨fun q notSp notNamed => reg_eq_of_exec executed fun mayWrite =>
        mayWrite.elim (fun named => notNamed ⟨rfl, named⟩) notSp,
      sameMemory_of_exec executed nofun, out_eq_of_exec executed nofun, sameStatus_of_exec executed nofun⟩
  · exact ⟨fun q notSp _ => reg_eq_of_exec executed notSp,
      sameMemory_of_exec executed nofun, out_eq_of_exec executed nofun, sameStatus_of_exec executed nofun⟩

/-- Settles O40: a fault leaves `pc`; each effect is read for the `pc` it leaves. -/
theorem pcAfterEveryInstruction : Obligations.PcAfterEveryInstruction := by
  intro i s t executed
  obtain ⟨wellFormed, effect⟩ | ⟨illFormed, v, -, rfl⟩ := exec_next_inv executed
  · rw [wellFormed]
    refine ⟨nofun, fun _ => ?_⟩
    cases i with
    | hlt =>
      obtain rfl := effect
      rfl
    | ldi a b | prn a | push a | pop a =>
      obtain ⟨r, -, rfl⟩ := effect
      exact narrow_add_toNat s.pc _
    | add a b | mul a b =>
      obtain ⟨ra, rb, -, -, rfl⟩ := effect
      exact narrow_add_toNat s.pc 3
    | call a =>
      obtain ⟨r, named, rfl⟩ := effect
      intro r' named'
      rw [State.setPc_pc, narrow_uval, Fin.ext (named.symm.trans named')]
    | ret =>
      obtain rfl := effect
      exact narrow_uval s.loadAtSp
  · rw [illFormed]
    exact ⟨fun _ => rfl, nofun⟩

end Sys2Proof.Proofs
end

section
/-! PROOFS. Rules of the whole machine: what a step may change, and how it ends. -/

namespace Sys2Proof.Proofs

open Sys2Proof.Machine

/-- 20_memory.md R43: the two instructions that write memory have the opcodes of PUSH and CALL. -/
theorem opcodeOf_of_writesMemory {i : Instr} (writes : WritesMemory i) : opcodeOf i = 0x45 ∨ opcodeOf i = 0x50 := by
  cases i with
  | push a => exact .inl rfl
  | call a => exact .inr rfl
  | _ => exact writes.elim

/-- Settles O41: only an effect that stores changes memory, so the opcode is that of PUSH or CALL; and it stores at the
decremented SP, so no other byte changes. -/
theorem onlyPushAndCallChangeMemory : Obligations.OnlyPushAndCallChangeMemory := by
  intro s t n stepped changed
  obtain ⟨-, ⟨i, decoded, -, effect⟩ | ⟨e, rfl⟩⟩ := step_cases stepped
  · obtain same | ⟨writes, v, stored⟩ := (frame_of_effect effect).mem
    · exact absurd (memRead_eq_of_mem_eq same n) changed
    · have opcode : opcodeOf i = s.memRead (uval s.pc) := opcodeOf_of_decodeFetched decoded
      refine ⟨opcode ▸ opcodeOf_of_writesMemory writes, ?_⟩
      by_contra elsewhere
      rw [memRead_eq_of_mem_eq stored, State.memRead_storeAtSp, State.reg_decSp, if_pos rfl, uval_narrow,
        Int.emod_emod, ← State.sp_eq, if_neg elsewhere] at changed
      exact changed rfl
  · exact absurd rfl changed

/-- 10_state.md R13: a register that a decoded instruction may write is SP or the one `operand_a` names. -/
theorem mayWriteReg_of_decodeFetched {ir a b : Byte} {i : Instr} {q : Fin 8}
    (decoded : decodeFetched ir a b = .ok i) (mayWrite : MayWriteReg q i) :
    (q = 7 ∧ ir ∈ ([0x45, 0x46, 0x50, 0x11] : List Byte)) ∨
    (q.val = a.toNat ∧ ir ∈ ([0x82, 0xA0, 0xA2, 0x46] : List Byte)) := by
  obtain ⟨rfl, spelled⟩ := List.cons_prefix_cons.mp (decodeFetched_eq_ok_iff.mp decoded)
  cases i with
  | hlt | prn x => exact mayWrite.elim
  | ldi x y | add x y | mul x y =>
    obtain ⟨rfl, -⟩ := List.cons_prefix_cons.mp spelled
    exact .inr ⟨mayWrite, by simp [opcodeOf]⟩
  | pop x =>
    obtain ⟨rfl, -⟩ := List.cons_prefix_cons.mp spelled
    exact mayWrite.symm.imp (⟨·, by simp [opcodeOf]⟩) (⟨·, by simp [opcodeOf]⟩)
  | push x | call x | ret => exact .inl ⟨mayWrite, by simp [opcodeOf]⟩

/-- Settles O42: a fault changes no register, and an effect only those its instruction may write. -/
theorem onlyNamedRegistersAndSpChange : Obligations.OnlyNamedRegistersAndSpChange := by
  intro s t q stepped changed
  obtain ⟨-, ⟨i, decoded, -, effect⟩ | ⟨e, rfl⟩⟩ := step_cases stepped
  · exact mayWriteReg_of_decodeFetched decoded (not_not.mp (mt ((frame_of_effect effect).reg q) changed))
  · exact absurd rfl changed

/-- 40_run_loop_and_hlt.md R77: the opcode of HLT at `pc` decodes to HLT, whatever the bytes after it are. -/
theorem decodeAt_of_opcodeHlt {s : State} (opcode : s.memRead (uval s.pc) = 0x01) : decodeAt s = .ok .hlt := by
  have fetched : (fetch s).ir = 0x01 := opcode
  rw [decodeAt, fetched]
  rfl

/-- 60_exceptions.md R127: a fault's record changes `err`. -/
theorem raise_err_ne (s : State) (e : ErrRecord) : (s.raise e).err ≠ s.err := by
  simp

/-- Settles O43: the step of HLT halts with `err` as before, any other effect keeps both, and a fault changes both. -/
theorem haltedIsReachedByHltOrFaultOnly : Obligations.HaltedIsReachedByHltOrFaultOnly := by
  intro s t stepped
  obtain ⟨running, ⟨i, decoded, -, effect⟩ | ⟨e, rfl⟩⟩ := step_cases stepped
  · refine ⟨running, ?_⟩
    obtain ⟨rfl, rfl⟩ | ⟨notHlt, same⟩ := (frame_of_effect effect).status
    · have opcode : opcodeHlt = s.memRead (uval s.pc) := opcodeOf_of_decodeFetched decoded
      exact ⟨fun _ => .inl opcode.symm, fun _ => rfl⟩
    · rw [same.runState, running]
      refine ⟨nofun, ?_⟩
      rintro (opcode | changed)
      · exact absurd (Except.ok.inj (decoded.symm.trans (decodeAt_of_opcodeHlt opcode))) notHlt
      · exact absurd same.err changed
  · exact ⟨running, fun _ => .inr (raise_err_ne s e), fun _ => rfl⟩

/-- Settles O44: an effect leaves `err` by its frame, so the step raised a record, which leaves what a fault leaves. -/
theorem faultsArePrecise : Obligations.FaultsArePrecise := by
  intro s t stepped changed
  obtain ⟨-, ⟨i, -, -, effect⟩ | ⟨e, rfl⟩⟩ := step_cases stepped
  · exact absurd (frame_of_effect effect).err changed
  · exact ⟨e, faultTaken_raise s e⟩

/-- Settles O45: HALTED is reached by HLT or with a record; the step of HLT leaves `err` as it was, empty. -/
theorem normalEndIsAnEndByHlt : Obligations.NormalEndIsAnEndByHlt := by
  intro s t clean stepped halted
  obtain ⟨running, reached⟩ := haltedIsReachedByHltOrFaultOnly s t stepped
  refine ⟨⟨fun ⟨_, noRecord⟩ => ?_, fun opcode => ⟨halted, ?_⟩⟩, exitStatus_of_step_halted stepped halted⟩
  · exact (reached.mp halted).resolve_right fun changed => changed (noRecord.trans clean.symm)
  · rw [step_of_decodeAt_ok running (decodeAt_of_opcodeHlt opcode)] at stepped
    cases stepped
    exact clean

end Sys2Proof.Proofs
end

section
/-! PROOFS. 42_alu.md: the statements about the difference, the laws of the arithmetic, and one register as both
operands. -/

namespace Sys2Proof.Proofs

open Sys2Proof.Machine

/-- Settles O23: an ALU result is the exact one modulo 256. -/
theorem aluSubIsFirstMinusSecond : Obligations.AluSubIsFirstMinusSecond :=
  uval_alu .sub

/-- R91: narrowing undoes reading a byte as a number and keeps sums, so the ALU's sum is the one of bit vectors. -/
theorem alu_add_eq (va vb : Byte) : alu .add va vb = va + vb := by
  rw [alu, aluExact, narrow, BitVec.ofInt_add, ← narrow, ← narrow, narrow_uval, narrow_uval]

/-- R93: narrowing keeps products. -/
theorem alu_mul_eq (va vb : Byte) : alu .mul va vb = va * vb := by
  rw [alu, aluExact, narrow, BitVec.ofInt_mul, ← narrow, ← narrow, narrow_uval, narrow_uval]

/-- R92: narrowing keeps differences. -/
theorem alu_sub_eq (va vb : Byte) : alu .sub va vb = va - vb := by
  rw [alu, aluExact, narrow, Int.sub_eq_add_neg, BitVec.ofInt_add, BitVec.ofInt_neg, ← BitVec.sub_eq_add_neg,
    ← narrow, ← narrow, narrow_uval, narrow_uval]

/-- Settles O24: the laws are those of the library's bit vectors. -/
theorem aluObeysModularArithmetic : Obligations.AluObeysModularArithmetic := by
  unfold Obligations.AluObeysModularArithmetic
  simp only [alu_add_eq, alu_mul_eq, alu_sub_eq]
  exact ⟨fun va vb => ⟨BitVec.add_comm va vb, BitVec.mul_comm va vb⟩,
    fun va vb vc => ⟨BitVec.add_assoc va vb vc, BitVec.mul_assoc va vb vc, BitVec.mul_add⟩,
    fun va vb => BitVec.add_sub_cancel va vb,
    fun va vb => ⟨BitVec.toInt_add va vb, BitVec.toInt_sub, BitVec.toInt_mul va vb⟩⟩

/-- Settles O25: the register holds the ALU's result on its old value twice, and no other register is written. -/
theorem aluApplyWithOneRegisterReadsTheOldValue : Obligations.AluApplyWithOneRegisterReadsTheOldValue := by
  intro a s
  simp only [reg_aluApply, if_true]
  refine ⟨?_, alu_mul_toNat _ _, ?_, fun op q other => ?_⟩
  · rw [alu_add_toNat, two_mul]
  · rw [alu_sub_eq]
    exact BitVec.sub_self (s.reg a)
  · rw [reg_aluApply, if_neg (List.ne_of_not_mem_cons other).symm]

end Sys2Proof.Proofs
end

section
/-! PROOFS. 41_ldi_prn.md: the statements about PRN and the text it makes. -/

namespace Sys2Proof.Proofs

open Sys2Proof.Machine

/-- R86: with an index in range, PRN appends the register to `out` and advances `pc` by 2. -/
theorem exec_prn_of_toNat_eq {a : Byte} {r : Fin 8} (named : a.toNat = r.val) (s : State) :
    exec (.prn a) s = .next ((s.emitOut (s.reg r)).advancePc 2) :=
  requireReg_of_eq named

/-- R86: with an index above 7, PRN raises RegIndexFault. -/
theorem exec_prn_of_lt_toNat {a : Byte} (above : 7 < a.toNat) (s : State) :
    exec (.prn a) s = .next (s.raise (.regIndex opcodePrn s.pc a)) :=
  requireReg_fault above

/-- Settles O21, by the two outcomes of the index check: in range, the successor differs in `out` and `pc`; above 7, it
is the state with the fault's record raised. -/
theorem prnEmitsTheRegister : Obligations.PrnEmitsTheRegister := by
  intro a b s
  refine ⟨rfl, fun r named => ?_, fun above => ⟨_, exec_prn_of_lt_toNat above s, faultTaken_raise s _⟩⟩
  exact ⟨_, exec_prn_of_toNat_eq named s, rfl, narrow_add_toNat s.pc 2, fun _ _ => rfl, fun _ _ => rfl, rfl, rfl, rfl⟩

/-- R86: the model's decimal digit is the library's. -/
theorem digitChar_eq_natDigitChar : ∀ n < 10, digitChar n = Nat.digitChar n := by decide

/-- R86: a number of at most three digits is split into them from the right. -/
theorem decimal_eq_toDigits {n : Nat} (small : n < 1000) : decimal n = Nat.toDigits 10 n := by
  have digit (m : Nat) : digitChar (m % 10) = Nat.digitChar (m % 10) :=
    digitChar_eq_natDigitChar _ (Nat.mod_lt m (by decide))
  unfold decimal
  split
  · next one => rw [digitChar_eq_natDigitChar n one, Nat.toDigits_of_lt_base one]
  · next two =>
    rw [Nat.toDigits_of_base_le (by decide) (Nat.le_of_not_lt two), ← digit]
    split
    · next one =>
      have tens : n / 10 < 10 := by omega
      rw [digitChar_eq_natDigitChar _ tens, Nat.toDigits_of_lt_base tens]
      rfl
    · next three =>
      have hundreds : n / 10 / 10 < 10 := by omega
      rw [Nat.toDigits_of_base_le (by decide) (by omega), Nat.toDigits_of_lt_base hundreds, ← digit,
        ← digitChar_eq_natDigitChar _ hundreds, Nat.div_div_eq_div_mul]
      rfl

/-- Settles O51: a byte has at most three digits. -/
theorem printedTextIsTheDecimalNumeral : Obligations.PrintedTextIsTheDecimalNumeral := by
  intro v
  rw [outText, decimal_eq_toDigits (v.isLt.trans (by decide))]

end Sys2Proof.Proofs
end

section
/-! PROOFS. 43_stack.md and 44_call_ret.md: the statements about PUSH, POP and CALL, and about two of the stack's
instructions in a row. -/

namespace Sys2Proof.Proofs

open Sys2Proof.Machine

section
variable {a : Byte} {r : Fin 8}

/-- 43_stack.md R101: with an index in range, PUSH decrements SP, stores the register there and advances `pc` by 2. -/
theorem exec_push_of_toNat_eq (named : a.toNat = r.val) (s : State) :
    exec (.push a) s = .next ((s.decSp.storeAtSp (uval (s.decSp.reg r))).advancePc 2) :=
  requireReg_of_eq named

/-- 43_stack.md R102: with an index in range, POP loads the register from SP, increments SP and advances `pc` by 2. -/
theorem exec_pop_of_toNat_eq (named : a.toNat = r.val) (s : State) :
    exec (.pop a) s = .next ((s.setReg r (uval s.loadAtSp)).incSp.advancePc 2) :=
  requireReg_of_eq named

/-- 44_call_ret.md R110: with an index in range, CALL decrements SP, stores `pc + 2` there and goes to the register's
value. -/
theorem exec_call_of_toNat_eq (named : a.toNat = r.val) (s : State) :
    exec (.call a) s = .next ((s.decSp.storeAtSp (uval s.pc + 2)).setPc (uval (s.decSp.reg r))) :=
  requireReg_of_eq named

/-- 44_call_ret.md R111: RET takes `pc` from SP and increments SP. -/
theorem exec_ret (s : State) : exec .ret s = .next (s.setPc (uval s.loadAtSp)).incSp := rfl

end

/-- What a store at the decremented SP and a `pc` write leave: SP one less, the value at that address, and nothing else
changed but `pc`. -/
theorem decSp_storeAtSp_setPc_frame {s t : State} {v w : Int} (eq : t = (s.decSp.storeAtSp v).setPc w) :
    ((t.reg 7).toNat : Int) = ((s.reg 7).toNat - 1 : Int) % 256 ∧
      t.memRead ((s.reg 7).toNat - 1 : Int) = narrow v ∧
      SameRegsExcept [7] s t ∧ SameMemoryExcept [s.decSp.sp] s t ∧ SameStatus s t ∧ t.out = s.out := by
  subst eq
  refine ⟨?_, ?_, fun q other => ?_, sameMemoryExcept_of_storeAtSp rfl, ⟨rfl, rfl, rfl⟩, rfl⟩
  · rw [State.setPc_reg, State.storeAtSp_reg, State.reg_decSp, if_pos rfl, narrow_toNat]
    rfl
  · rw [State.setPc_memRead, State.memRead_storeAtSp, State.reg_decSp, if_pos rfl, uval_narrow, Int.emod_emod]
    exact if_pos rfl
  · rw [State.setPc_reg, State.storeAtSp_reg, State.reg_decSp, if_neg (List.ne_of_not_mem_cons other).symm]

/-- D16: after the decrement, R7 reads as the decremented SP and any other register as before. -/
theorem reg_decSp_eq_ite (s : State) (r : Fin 8) : s.decSp.reg r = if r = 7 then s.decSp.reg 7 else s.reg r := by
  split
  · next sp => rw [sp]
  · next other => rw [State.reg_decSp, if_neg (Ne.symm other)]

/-- Settles O28: what is stored is the register as it reads after the decrement. -/
theorem pushStoresBelowTheStackTop : Obligations.PushStoresBelowTheStackTop := by
  intro a b r s named
  obtain ⟨sp, stored, frame⟩ := decSp_storeAtSp_setPc_frame (s := s) (v := uval (s.decSp.reg r)) rfl
  refine ⟨rfl, _, exec_push_of_toNat_eq named s, sp, stored.trans ?_, narrow_add_toNat s.pc 2, frame⟩
  rw [narrow_uval]
  exact reg_decSp_eq_ite s r

/-- Settles O30: what is stored is `pc + 2`, and the target is the register as it reads after the decrement. -/
theorem callStoresTheReturnAddress : Obligations.CallStoresTheReturnAddress := by
  intro a b r s named
  obtain ⟨sp, stored, frame⟩ := decSp_storeAtSp_setPc_frame (s := s) (v := uval s.pc + 2) rfl
  refine ⟨rfl, _, exec_call_of_toNat_eq named s, sp, ?_, ?_, frame⟩
  · rw [stored]
    exact narrow_add_toNat s.pc 2
  · rw [State.setPc_pc, narrow_uval]
    exact reg_decSp_eq_ite s r

/-- Settles O29: the load comes first, then the increment, which is of the loaded byte when it went to R7. -/
theorem popLoadsTheStackTop : Obligations.PopLoadsTheStackTop := by
  intro a b r s named
  refine ⟨rfl, _, exec_pop_of_toNat_eq named s, fun other => ⟨?_, ?_⟩, ?_, narrow_add_toNat s.pc 2, fun q outside => ?_,
    fun _ _ => rfl, ⟨rfl, rfl, rfl⟩, rfl⟩
  · rw [State.advancePc_reg, State.reg_incSp, if_neg other.symm, State.reg_setReg_same, narrow_uval]
    rfl
  · rw [State.advancePc_reg, State.reg_incSp, if_pos rfl, State.reg_setReg_other s other]
    exact narrow_add_toNat _ 1
  · rintro rfl
    rw [State.advancePc_reg, State.reg_incSp, if_pos rfl, State.reg_setReg_same, narrow_uval]
    exact narrow_add_toNat _ 1
  · obtain ⟨notNamed, notSp⟩ : q ≠ r ∧ q ≠ 7 := by simpa using outside
    rw [State.advancePc_reg, State.reg_incSp, if_neg notSp.symm, State.reg_setReg_other s notNamed.symm]

/-- 43_stack.md R103: incrementing SP on registers that differ from `s` by the decrement alone restores those of `s`. -/
theorem incSp_regs_of_decSp {s t : State} (same : ∀ q, t.reg q = s.decSp.reg q) : t.incSp.regs = s.regs := by
  refine State.regs_ext fun q => ?_
  rw [State.reg_incSp, same, same]
  by_cases sp : 7 = q
  · rw [if_pos sp, State.reg_decSp, if_pos rfl, narrow_dec_inc, sp]
  · rw [if_neg sp, State.reg_decSp, if_neg sp]

/-- 43_stack.md R100: what was stored at the decremented SP is loaded from there, when only `pc` was written since. -/
theorem loadAtSp_setPc_storeAtSp (s : State) (v w : Int) : ((s.storeAtSp v).setPc w).loadAtSp = narrow v :=
  State.loadAtSp_storeAtSp s v

/-- Settles O36: POP loads what PUSH stored, the register as it reads after the decrement; so before the increment the
registers are those after the decrement. -/
theorem pushThenPopRestoresTheRegisters : Obligations.PushThenPopRestoresTheRegisters := by
  intro a r s named
  refine ⟨_, _, exec_push_of_toNat_eq named s, exec_pop_of_toNat_eq named _, incSp_regs_of_decSp fun q => ?_, ?_⟩
  · rw [State.reg_setReg, narrow_uval, State.advancePc, loadAtSp_setPc_storeAtSp, narrow_uval]
    split
    · next same => rw [same]
    · rfl
  · calc (narrow (uval (narrow (uval s.pc + 2)) + 2)).toNat
      _ = ((narrow (uval s.pc + 2)).toNat + 2) % 256 := narrow_add_toNat _ 2
      _ = ((s.pc.toNat + 2) % 256 + 2) % 256 := congrArg (fun n => (n + 2) % 256) (narrow_add_toNat s.pc 2)
      _ = (s.pc.toNat + 4) % 256 := Nat.mod_add_mod _ 256 2

/-- Settles O37: RET takes `pc` from what CALL stored, and increments the SP that CALL decremented. -/
theorem callThenRetResumesAfterTheCall : Obligations.CallThenRetResumesAfterTheCall := by
  intro a r s named
  refine ⟨_, _, exec_call_of_toNat_eq named s, exec_ret _, ?_, incSp_regs_of_decSp fun _ => rfl⟩
  rw [State.incSp_pc, State.setPc_pc, loadAtSp_setPc_storeAtSp, narrow_uval]
  exact narrow_add_toNat s.pc 2

/-- Settles O38: RET takes `pc` from what PUSH stored, and increments the SP that PUSH decremented. -/
theorem pushThenRetIsAJump : Obligations.PushThenRetIsAJump := by
  intro a r s named
  refine ⟨_, _, exec_push_of_toNat_eq named s, exec_ret _, incSp_regs_of_decSp fun _ => rfl, ?_⟩
  rw [State.incSp_pc, State.setPc_pc, State.advancePc, loadAtSp_setPc_storeAtSp, narrow_uval, narrow_uval]
  refine ⟨fun other => ?_, fun sp => ?_⟩
  · rw [State.reg_decSp, if_neg other.symm]
  · rw [sp]
    rfl

/-- Settles O39: PUSH stores at the new SP, where the next fetch reads exactly when `pc` is that address. -/
theorem pushedByteIsSeenByTheNextFetch : Obligations.PushedByteIsSeenByTheNextFetch := by
  intro a r s named
  refine ⟨_, exec_push_of_toNat_eq named s, fun same => ?_, fun other => ?_⟩
  · rw [fetch, same]
    exact (State.loadAtSp_storeAtSp _ _).trans (narrow_uval _)
  · exact State.memRead_storeAtSp_other _ _ other

end Sys2Proof.Proofs
end

section
/-! PROOFS. 10_state.md, 20_memory.md and 70_reset_and_hazards.md: the statements about reset, the canonical memory and
the launch. -/

namespace Sys2Proof.Proofs

open Sys2Proof.Machine

/-- Settles O1: the reset memory lists no cell, and the other values are those written out for reset. -/
theorem resetLeavesDocumentedValues : Obligations.ResetLeavesDocumentedValues :=
  ⟨fun _ => rfl, rfl, rfl, rfl, rfl, rfl, rfl⟩

/-- Settles O2, register by register. -/
theorem generalRegistersResetToZero : Obligations.GeneralRegistersResetToZero := by
  unfold Obligations.GeneralRegistersResetToZero
  decide

/-- A canonical memory lists exactly the cells below 256 that do not read as an unlisted one. -/
theorem mem_iff_read_of_wf {m : Memory} (wf : Memory.wf m) (c : Host.Cell) :
    c ∈ m ↔ c.1 < 256 ∧ c.2 ≠ Memory.unlisted ∧ Memory.read m c.1 = c.2 := by
  obtain ⟨rising, bounded⟩ := wf
  constructor
  · exact fun listed => ⟨(bounded c listed).1, (bounded c listed).2, Memory.read_of_mem rising listed⟩
  · rintro ⟨-, notUnlisted, read⟩
    by_contra unlisted
    refine notUnlisted (read.symm.trans (Memory.read_of_forall_ne fun d listed same => unlisted ?_))
    have value := Memory.read_of_mem rising listed
    rw [same, read] at value
    rwa [Prod.ext same.symm value]

/-- Settles O5: memories that read alike list the same cells, and two lists in the same strict order with the same
members are equal. -/
theorem canonicalMemoriesReadingAlikeAreEqual : Obligations.CanonicalMemoriesReadingAlikeAreEqual := by
  intro m m' wf wf' alike
  have members (c : Host.Cell) : c ∈ m ↔ c ∈ m' := by
    rw [mem_iff_read_of_wf wf, mem_iff_read_of_wf wf']
    exact and_congr_right fun below => by rw [alike c.1 below]
  have irrefl : Std.Irrefl (fun c d : Host.Cell => c.1 < d.1) := ⟨fun c => Nat.lt_irrefl c.1⟩
  have antisymm : Std.Antisymm (fun c d : Host.Cell => c.1 < d.1) := ⟨fun _ _ lt gt => absurd gt (Nat.lt_asymm lt)⟩
  exact List.Pairwise.eq_of_mem_iff wf.1 wf'.1 members

/-- R142, D14: an image that fits is written from address 0 on, over the reset state. -/
theorem launch_of_length_le {image : List Byte} (fits : image.length ≤ 256) :
    launch image = .ok (writeFrom State.reset 0 image) :=
  if_pos fits

/-- R142: what is read after the launch is the image, and zero past its end. -/
theorem memRead_writeFrom_reset {image : List Byte} (fits : image.length ≤ 256) {n : Nat} (below : n < 256) :
    (writeFrom State.reset 0 image).memRead n = image.getD n 0x00 := by
  rw [memRead_writeFrom image State.reset 0 n (by omega) below]
  split
  · rfl
  · next outside =>
    rw [List.getD_eq_default _ _ (by omega)]
    rfl

/-- Settles O50: the loader writes memory alone, keeps it canonical, and leaves the image there; a longer image takes
the other branch of the load. -/
theorem launchHoldsTheImage : Obligations.LaunchHoldsTheImage := by
  intro image
  refine ⟨fun fits => ?_, fun tooLong => if_neg (Nat.not_le_of_lt tooLong)⟩
  have wf := writeFrom_wf image 0 (s := State.reset) Memory.nil_wf
  have read (n : Nat) (below : n < 256) := memRead_writeFrom_reset fits below
  obtain ⟨m, launched⟩ := writeFrom_changes_memory_only image State.reset 0
  rw [launched] at wf read
  refine ⟨_, (launch_of_length_le fits).trans (congrArg _ launched), read, rfl, rfl, rfl, rfl, rfl, rfl, wf, ?_⟩
  exact ⟨fun _ => ⟨rfl, rfl⟩, nofun⟩

end Sys2Proof.Proofs
end
